-- ==== Sys2Proof/Word.lean ====
section
/-! DEFINITION. The words of the core: a byte is the only one (00_scope.md R8; 20_memory.md R75). -/

namespace Sys2Proof

/-- A byte, an unsigned integer 0..255 (R8). A bit is a `Bool`; every other quantity of the core is a natural number
(R8), so it is a `Nat`. -/
abbrev Byte := BitVec 8

/-- A byte sequence: the elements of IN and OUT, and of every operand and result (20_memory.md R70, D16). -/
abbrev Bytes := List Byte

/-- A bit sequence, first bit sent first: the elements of ENC and S (20_memory.md R70). -/
abbrev Bits := List Bool

end Sys2Proof
end

