-- ==== Sys2Proof/Config.lean ====
section
/-! DEFINITION. The constants of 00_scope.md R6 and R33, and the three OPEN capacities. -/

namespace Sys2Proof.Config

/-- `WINDOW_MIN` (R6). -/
@[simp] abbrev windowMin : Nat := 1

/-- `WINDOW_MAX`, the bound enforced when CONFIGURE runs (R6). -/
@[simp] abbrev windowMax : Nat := 400

/-- `WINDOW_DEFAULT`, which reset puts into CFG (R6, R340). -/
@[simp] abbrev windowDefault : Nat := 20

/-- `LOOKAHEAD`, the longest match (R6). -/
@[simp] abbrev lookahead : Nat := 15

/-- `MIN_MATCH`, the shortest match the finder reports (R6). -/
@[simp] abbrev minMatch : Nat := 2

/-- `LIT_BITS`, the width of a literal's payload (R6). -/
@[simp] abbrev litBits : Nat := 8

/-- `DIST_BITS` (R6). -/
@[simp] abbrev distBits : Nat := 12

/-- `LEN_BITS` (R6). -/
@[simp] abbrev lenBits : Nat := 4

/-- `MATCH_PAYLOAD_BITS`: 16, not the 24 the source also names (R6, C1). -/
@[simp] abbrev matchPayloadBits : Nat := 16

/-- `LIT_TOKEN_BITS` (R6). -/
@[simp] abbrev litTokenBits : Nat := 9

/-- `MATCH_TOKEN_BITS` (R6). -/
@[simp] abbrev matchTokenBits : Nat := 17

/-- `TERMINAL_BITS`: the decoder stops when fewer than this many bits remain (R6). -/
@[simp] abbrev terminalBits : Nat := 9

end Sys2Proof.Config

namespace Sys2Proof

/-- The three OPEN parameters of R6 and D12. `none` is "unbounded". They are arguments of the model (R6), so State
carries them and no step writes them (log 2). -/
structure Params where
  maxInputBytes  : Option Nat
  maxStreamBytes : Option Nat
  maxOutputBytes : Option Nat
  deriving DecidableEq, Repr

/-- All three capacities unbounded, which R6 allows. -/
def Params.unbounded : Params := { maxInputBytes := none, maxStreamBytes := none, maxOutputBytes := none }

end Sys2Proof
end

