-- ==== Sys2Proof/Syntax.lean ====
section
/-! DEFINITION. The rows of spec/opcode_table.json: the two tokens of the stream and the four commands of the host. -/

namespace Sys2Proof

/-- A host command with its typed operands (30_encoding.md R113; 44_host_commands.md R271 to R274). D2 says the model
takes commands as an inductive type. -/
inductive Command where
  | configure (w : Nat)
  | findMatch (data : Bytes) (pos : Nat)
  | compress (data : Bytes)
  | decompress (bytes : Bytes)
  deriving DecidableEq, Repr

/-- One constructor a row of the opcode table. Distance and length are naturals (R8); `Instr.wellFormed` says which fit
their fields. -/
inductive Instr where
  /-- LIT, append the literal byte (R102, R213). -/
  | lit (b : Byte)
  /-- MATCH, copy `len` bytes from distance `d` (R103, R214). -/
  | matchTok (d len : Nat)
  /-- CONFIGURE (R271). -/
  | configure (w : Nat)
  /-- FIND_MATCH (R272). -/
  | findMatch (data : Bytes) (pos : Nat)
  /-- COMPRESS (R273). -/
  | compress (data : Bytes)
  /-- DECOMPRESS (R274). -/
  | decompress (bytes : Bytes)
  deriving DecidableEq, Repr

/-- A command as a row of the table. -/
def Command.toInstr : Command → Instr
  | .configure w => .configure w
  | .findMatch data pos => .findMatch data pos
  | .compress data => .compress data
  | .decompress bytes => .decompress bytes

/-- One line of a token listing (R111), with its operands as written: any natural, checked by `Line.wellFormed`. -/
inductive Line where
  | lit (b : Nat)
  | matchLine (d len : Nat)
  | pad (k : Nat)
  deriving DecidableEq, Repr

end Sys2Proof
end

