-- ==== Sys2Proof/WellFormed.lean ====
section
/-! DEFINITION. Which instructions fit their encoding, which are canonical, and which listings an assembler accepts. -/

namespace Sys2Proof

/-- A MATCH fits its 12-bit distance and 4-bit length (R103, R112). A LIT always fits, its operand being a byte. The
commands have typed operands and no fields (R113): a value they reject ends in an error response, so each is well formed. -/
def Instr.wellFormed : Instr → Bool
  | .lit _ => true
  | .matchTok d len => decide (d < 2 ^ Config.distBits) && decide (len < 2 ^ Config.lenBits)
  | .configure _ => true
  | .findMatch _ _ => true
  | .compress _ => true
  | .decompress _ => true

/-- The two rows that are tokens of the stream (R113: the others are commands). -/
def Instr.isToken : Instr → Bool
  | .lit _ => true
  | .matchTok _ _ => true
  | .configure _ => false
  | .findMatch _ _ => false
  | .compress _ => false
  | .decompress _ => false

/-- A token the encoder may emit under window `w` with `remaining` input bytes left (R108). -/
def Instr.canonical (w remaining : Nat) : Instr → Bool
  | .lit _ => true
  | .matchTok d len =>
    decide (1 ≤ d) && decide (d ≤ w) && decide (Config.minMatch ≤ len) && decide (len ≤ min Config.lookahead remaining)
  | .configure _ => false
  | .findMatch _ _ => false
  | .compress _ => false
  | .decompress _ => false

/-- A line's operands are in range, or the assembler refuses the line (R112; the bound on a pad is R111's). -/
def Line.wellFormed : Line → Bool
  | .lit b => decide (b < 256)
  | .matchLine d len => decide (d < 4096) && decide (len < 16)
  | .pad k => decide (k ≤ 7)

/-- Every line is well formed and a PAD line stands only last (R111, R112). -/
def Line.listingWellFormed : List Line → Bool
  | [] => true
  | [l] => l.wellFormed
  | .pad _ :: _ :: _ => false
  | l :: m :: rest => l.wellFormed && Line.listingWellFormed (m :: rest)

end Sys2Proof
end

