-- ==== Sys2Proof/Decode.lean ====
section
/-! DEFINITION. Bits and bytes, the fields of a token, the decoder and the encoder, and the listing's assembler. -/

namespace Sys2Proof

/-- `bits_w(v)`: the `w` bits of `v`, most significant first (00_scope.md R10). -/
def bitsOf : Nat → Nat → Bits
  | 0, _ => []
  | w + 1, v => v.testBit w :: bitsOf w v

/-- `val(s)`: the natural whose most-significant-bit-first sequence is `s` (R10). -/
def val (s : Bits) : Nat :=
  s.foldl (fun acc bit => 2 * acc + bit.toNat) 0

/-- `BitRead(S, k, w) = val(S[k..k+w))` (R11, R74), meant for `k + w ≤ len(S)`. -/
def bitRead (s : Bits) (k w : Nat) : Nat :=
  val ((s.drop k).take w)

/-- Unpacking: stream bit `k` is bit `7 − (k mod 8)` of byte `k div 8` (20_memory.md R73). -/
def unpack (bytes : Bytes) : Bits :=
  bytes.flatMap fun b => bitsOf 8 b.toNat

/-- Packing: byte `j` is `val(E[8j..8j+8))` (R73). It is used on whole bytes only; R185 pads first. -/
def pack : Bits → Bytes
  | b0 :: b1 :: b2 :: b3 :: b4 :: b5 :: b6 :: b7 :: rest =>
    BitVec.ofNat 8 (val [b0, b1, b2, b3, b4, b5, b6, b7]) :: pack rest
  | _ => []

/-- The number of pad bits after `len` bits of stream (30_encoding.md R106; 41_token_encoder.md R185). -/
def padCount (len : Nat) : Nat :=
  (8 - len % 8) % 8

/-- The stream with its zero pad (R106, R185). -/
def padded (s : Bits) : Bits :=
  s ++ List.replicate (padCount s.length) false

/-- The high payload byte of a match, `b1 = d >> 4` (R103, R105). -/
def highByte (d : Nat) : Nat :=
  d >>> 4

/-- The low payload byte of a match, `b2 = ((d & 0xF) << 4) | L` (R103, R105). -/
def lowByte (d len : Nat) : Nat :=
  ((d &&& 0xF) <<< 4) ||| len

/-- `distance = (b1 << 4) | (b2 >> 4)` (R104). -/
def distanceOf (b1 b2 : Nat) : Nat :=
  (b1 <<< 4) ||| (b2 >>> 4)

/-- `length = b2 & 0xF` (R104). -/
def lengthOf (b2 : Nat) : Nat :=
  b2 &&& 0xF

/-- Why no token stands at the front of a bit sequence. Nothing else is refused: R110. -/
inductive DecodeReject where
  /-- Fewer than 9 bits: the end of the stream, not an error (R107, R211). -/
  | endOfStream (remaining : Nat)
  /-- A flag 1 with fewer than 16 bits after it (R109 (h), R215). -/
  | truncatedMatch (afterFlag : Nat)
  deriving DecidableEq, Repr

/-- What the decoder makes of a bit sequence: a token and the bits after it, or a rejection by name. -/
inductive Decoded where
  | token (i : Instr) (rest : Bits)
  | reject (r : DecodeReject)
  deriving DecidableEq, Repr

/-- The token at the front of the stream: the terminal check (R211), the flag (R101, R212), then the payload of LIT
(R102, R213) or of MATCH (R104, R214). Total on every bit sequence. -/
def decodeToken (s : Bits) : Decoded :=
  if s.length < Config.terminalBits then .reject (.endOfStream s.length)
  else
    match s with
    | [] => .reject (.endOfStream 0)
    | false :: rest => .token (.lit (BitVec.ofNat 8 (bitRead rest 0 Config.litBits))) (rest.drop Config.litBits)
    | true :: rest =>
      if rest.length < Config.matchPayloadBits then .reject (.truncatedMatch rest.length)
      else
        .token (.matchTok (distanceOf (bitRead rest 0 8) (bitRead rest 8 8)) (lengthOf (bitRead rest 8 8)))
          (rest.drop Config.matchPayloadBits)

/-- The token at the front of a byte sequence; stream offset 0 is its flag (R79). -/
def decode (bytes : Bytes) : Decoded :=
  decodeToken (unpack bytes)

/-- The bits of a token (R102, R103). A command has no bits (R114). -/
def encode : Instr → Option Bits
  | .lit b => some (false :: bitsOf 8 b.toNat)
  | .matchTok d len => some (true :: (bitsOf 8 (highByte d) ++ bitsOf 8 (lowByte d len)))
  | .configure _ => none
  | .findMatch _ _ => none
  | .compress _ => none
  | .decompress _ => none

/-- The concatenation `T_1 ++ … ++ T_t` of R100, before the pad; none when one is no token. -/
def encodeTokens : List Instr → Option Bits
  | [] => some []
  | i :: rest =>
    match encode i, encodeTokens rest with
    | some t, some ts => some (t ++ ts)
    | _, _ => none

/-- The width of the table's token word from its number of bits in whole bytes: LIT has 9, MATCH has 17 (log 11). -/
def tokenWidth (nbits : Nat) : Nat :=
  if nbits ≤ 16 then Config.litTokenBits else Config.matchTokenBits

/-- The bits of a table word in the order they are sent: the first bit is the word's most significant (R102, R103). -/
def tokenBits (nbits w : Nat) : Bits :=
  bitsOf (tokenWidth nbits) w

/-- What the decoder reads from a word numbered as the opcode table numbers it: bit 0 is the last bit sent (R102: "the
first bit as bit 8 of a 9-bit word"; R103: "as bit 16 of a 17-bit word"). A row with no bits is a command and has no word
(log 11). -/
def decodeTableWord (nbits w : Nat) : Option Instr :=
  if nbits < Config.litTokenBits then none
  else
    match decodeToken (tokenBits nbits w) with
    | .token i _ => some i
    | .reject _ => none

/-- The token a listing's line stands for; PAD is not a token (R111). -/
def Line.token : Line → Option Instr
  | .lit b => some (.lit (BitVec.ofNat 8 b))
  | .matchLine d len => some (.matchTok d len)
  | .pad _ => none

/-- A listing's line as bits, refused when not well formed (R111, R112). -/
def assembleLine (l : Line) : Option Bits :=
  if l.wellFormed then
    match l with
    | .lit b => encode (.lit (BitVec.ofNat 8 b))
    | .matchLine d len => encode (.matchTok d len)
    | .pad k => some (List.replicate k false)
  else none

/-- A listing's bits, in listing order (R111): refused where a line is, and where a PAD line is not the last. -/
def assemble : List Line → Option Bits
  | [] => some []
  | [l] => assembleLine l
  | .pad _ :: _ :: _ => none
  | l :: m :: rest =>
    match assembleLine l, assemble (m :: rest) with
    | some t, some ts => some (t ++ ts)
    | _, _ => none

end Sys2Proof
end

