-- ==== Sys2Proof/Machine/State.lean ====
section
/-! DEFINITION. What the core holds, what it answers, why a step can stop, and the state after reset. -/

namespace Sys2Proof.Machine

/-- A file path of the host adapter (R302), as a byte string (log 18). -/
abbrev Path := Bytes

/-- Which way the adapter's file access went (R302). -/
inductive Direction where
  | read
  | write
  deriving DecidableEq, Repr

/-- What CAPACITY records: the offending length, or for an output overflow the flag offset of the token (R300, log 19). -/
inductive CapacityInfo where
  | length (n : Nat)
  | flagOffset (k : Nat)
  deriving DecidableEq, Repr

/-- The errors of 60_exceptions.md R300 with the info each records. They end a command with a response; they are not
faults of the model. -/
inductive Error where
  /-- R301, by CONFIGURE: the rejected value. -/
  | configError (w : Nat)
  /-- R303, by DECOMPRESS: the flag's stream bit offset, the distance and the length. -/
  | decodeDistance (flagOffset d len : Nat)
  /-- R304, by DECOMPRESS: the flag's stream bit offset. -/
  | decodeTruncated (flagOffset : Nat)
  /-- R305, by FIND_MATCH, COMPRESS and DECOMPRESS. -/
  | capacity (info : CapacityInfo)
  /-- R306, by FIND_MATCH: the offending position. -/
  | badArgument (pos : Nat)
  /-- R302, by the host adapter only, never by the core. -/
  | ioError (path : Path) (dir : Direction)
  deriving DecidableEq, Repr

/-- What a command that succeeds gives back (R271 to R274). -/
inductive Result where
  /-- CONFIGURE's `Ok(())`. -/
  | done
  /-- FIND_MATCH's option of a distance and a length. -/
  | found (m : Option (Nat × Nat))
  /-- The bytes of COMPRESS or DECOMPRESS. -/
  | bytes (bs : Bytes)
  deriving DecidableEq, Repr

/-- The one response of a command (R270). -/
inductive Response where
  | ok (r : Result)
  | err (e : Error)
  deriving DecidableEq, Repr

/-- The decoder's states (R210). COPY_D and COPY_REM are Copy's own: they "matter only when FSM = Copy" and are
unspecified and unread elsewhere (R37), so no other state has them (log 3). -/
inductive Fsm where
  | readFlag
  | readLiteral
  | readMatch
  | copy (copyD copyRem : Nat)
  deriving DecidableEq, Repr

/-- What the compressor holds while FIND_MATCH runs (R35): IN, the latched W, and the position, an operand of the command. -/
structure Search where
  input : Bytes
  w     : Nat
  pos   : Nat
  deriving DecidableEq, Repr

/-- What the compressor holds while COMPRESS runs (R35): IN, the latched W, CUR and ENC. -/
structure Compressor where
  input : Bytes
  w     : Nat
  cur   : Nat
  enc   : Bits
  deriving DecidableEq, Repr

/-- What the decoder and the replay engine hold while DECOMPRESS runs (R37): S, RP, FSM and OUT, with COPY_D and COPY_REM
inside FSM. -/
structure Decoder where
  stream : Bits
  rp     : Nat
  fsm    : Fsm
  out    : Bytes
  deriving DecidableEq, Repr

/-- The command in flight with its command-local state (R30), or none. Every command is in flight from the step that takes it
to the step that answers it, so that a reset can land inside each (R341, log 1). -/
inductive Activity where
  | idle
  /-- The core has taken the command and done nothing of it yet: no check is made, no state read or written (R275). -/
  | accepted (c : Command)
  | finding (f : Search)
  | compressing (c : Compressor)
  | decompressing (d : Decoder)
  deriving DecidableEq, Repr

/-- The model's own stops. No step of a state that a run can reach ends in one (log 9). -/
inductive Fault where
  /-- Raised by the encoder step if CUR stood outside IN. Safe: R71 and R184 exclude it. -/
  | inputOutOfRange
  /-- Raised by the execution of LIT if fewer than 8 bits were left to pop. Safe: R213 excludes it. -/
  | streamOutOfRange
  /-- Raised by a copy step if COPY_D were 0 or beyond OUT. Safe: R246 excludes it. -/
  | historyOutOfRange
  deriving DecidableEq, Repr

/-- Why an instruction has no meaning in a state. -/
inductive Refusal where
  /-- An instruction the model has no meaning for. No arm of `exec` gives it. Safe. -/
  | notModelled (mnemonic : String)
  /-- Raised by LIT and MATCH where DECOMPRESS is not running at that kind of token: a token is executed only there (R210,
  R212). No step gives it. Safe (log 8). -/
  | tokenOutsideStream
  deriving DecidableEq, Repr

/-- Everything the core holds, its parameters, and the host's side of the command interface. -/
structure State where
  /-- The OPEN capacities, arguments of the model (R6, log 2). -/
  params         : Params
  /-- CFG, the one persistent register: CFG.WINDOW_SIZE at bits [8:0], and no other bit (R31). -/
  cfg            : BitVec 9
  /-- The command in flight, or idle (R30, R44). -/
  activity       : Activity
  /-- The commands the host waits to issue, the next one first: the core queues none (R277, log 5). -/
  waiting        : List Command
  /-- The responses given so far, oldest first (R270, log 5). -/
  responses      : List Response
  /-- The host asks for a reset, which the next step is (R340, R341, log 6). -/
  resetRequested : Bool
  deriving DecidableEq, Repr

/-- The core right after reset (R340): CFG.WINDOW_SIZE is 20 and the core is idle. The parameters are unbounded (log 2);
nothing waits and nothing was answered (log 5, log 6). -/
def State.reset : State where
  params := Params.unbounded
  cfg := BitVec.ofNat 9 Config.windowDefault
  activity := .idle
  waiting := []
  responses := []
  resetRequested := false

end Sys2Proof.Machine
end

