-- ==== Sys2Proof/Machine/Operands.lean ====
section
/-! DEFINITION. Reading operands: the capacities, the buffers' read primitives of R11, and the finder's bounds. -/

namespace Sys2Proof.Machine

/-- A length is beyond a capacity; nothing is beyond an unbounded one (20_memory.md R81). -/
def beyond (limit : Option Nat) (n : Nat) : Bool :=
  match limit with
  | none => false
  | some m => decide (m < n)

/-- `WINDOW_SIZE` as a natural, CFG[8:0] (R31). -/
def State.windowSize (s : State) : Nat :=
  s.cfg.toNat

/-- `n = len(IN)` (R35). -/
def Compressor.n (c : Compressor) : Nat :=
  c.input.length

/-- `N = len(S)` (R37). -/
def Decoder.n (d : Decoder) : Nat :=
  d.stream.length

/-- `N − RP`, the bits not yet read (R211). -/
def Decoder.remaining (d : Decoder) : Nat :=
  d.n - d.rp

/-- `MemRead(IN, a, 1)` (R11, R71); none outside IN. -/
def memRead (input : Bytes) (a : Nat) : Option Byte :=
  input[a]?

/-- `HistRead(d) = OUT[len(OUT) − d]`, for `1 ≤ d ≤ len(OUT)` (R11, R240); none for any other `d`. -/
def histRead (out : Bytes) (d : Nat) : Option Byte :=
  if 1 ≤ d then
    if d ≤ out.length then out[out.length - d]? else none
  else none

/-- `Dmax = min(W, pos)`, the largest eligible distance (40_match_finder.md R142). -/
def dMax (w pos : Nat) : Nat :=
  min w pos

/-- `maxL = min(LOOKAHEAD, n − pos)`, the longest candidate (R143). -/
def maxL (n pos : Nat) : Nat :=
  min Config.lookahead (n - pos)

end Sys2Proof.Machine
end

