-- ==== Sys2Proof/Machine/Flags.lean ====
section
/-! DEFINITION. The one condition bit of the core: the token flag (R39). There are no condition codes. -/

namespace Sys2Proof.Machine

/-- The token flag's name for the next decoder state: 0 is a literal, 1 is a match (R101, R212). -/
def Fsm.afterFlag (flag : Bool) : Fsm :=
  if flag then .readMatch else .readLiteral

/-- ReadFlag pops the flag: `RP ← RP + 1`, and the flag chooses the state. It is not kept (R39, R212). -/
def Decoder.popFlag (flag : Bool) (d : Decoder) : Decoder :=
  { d with rp := d.rp + 1, fsm := Fsm.afterFlag flag }

/-- The decoder about to pop the payload of a token with this flag: at ReadFlag the flag is popped first (R212), unless fewer
than 9 bits are left, where the stream ends (R211); at the flag's own state it already is. No token of this kind is executed
anywhere else (log 8). -/
def Decoder.atPayload (flag : Bool) (d : Decoder) : Option Decoder :=
  match d.fsm with
  | .readFlag => if d.remaining < Config.terminalBits then none else some (d.popFlag flag)
  | .readLiteral => if flag then none else some d
  | .readMatch => if flag then some d else none
  | .copy _ _ => none

/-- The token at the state's DECOMPRESS, if one runs there (R210). -/
def State.atPayload (flag : Bool) (s : State) : Option Decoder :=
  match s.activity with
  | .idle => none
  | .accepted _ => none
  | .finding _ => none
  | .compressing _ => none
  | .decompressing d => d.atPayload flag

end Sys2Proof.Machine
end

