-- ==== Sys2Proof/Machine/Ops.lean ====
section
/-! DEFINITION. The operations every meaning is made of: ending a command with a result or an error, starting one, the
appends of R11, and reset. -/

namespace Sys2Proof.Machine

/-- What a step of this machine gives. -/
abbrev StepOutcome := Host.Outcome State Fault Refusal

/-- A command's one response: it is given, the command-local state is discarded and the core is idle (R30, R270). -/
def respond (r : Response) (s : State) : State :=
  { s with activity := .idle, responses := s.responses ++ [r] }

/-- `return Ok(result)` (R270). -/
def finish (r : Result) (s : State) : State :=
  respond (.ok r) s

/-- `raise E(info)`, the core's only exception entry (R310): the command stops at once, its response is the error, OUT and
ENC go with the command-local state, CFG stays, and no state is saved. There is no return operation: the core is idle and
the next command starts fresh (R311). -/
def raise (e : Error) (s : State) : State :=
  respond (.err e) s

/-- A command presented to a busy core waits at the host, before the others (R277, D21, log 7). -/
def waitFor (c : Command) (s : State) : State :=
  { s with waiting := c :: s.waiting }

/-- A command runs if the core has none in flight, and waits otherwise (R277). -/
def whenIdle (c : Command) (s run : State) : StepOutcome :=
  match s.activity with
  | .idle => .next run
  | .accepted _ => .next (waitFor c s)
  | .finding _ => .next (waitFor c s)
  | .compressing _ => .next (waitFor c s)
  | .decompressing _ => .next (waitFor c s)

/-- The write of CFG.WINDOW_SIZE, the only one a command makes (R31, R271). -/
def State.setWindow (w : Nat) (s : State) : State :=
  { s with cfg := BitVec.ofNat 9 w }

/-- The core takes the host's next command, which is then in flight (R277, log 1). -/
def accept (c : Command) (rest : List Command) (s : State) : State :=
  { s with waiting := rest, activity := .accepted c }

/-- The core with nothing in flight, on which the command it has taken starts (R277). -/
def State.asIdle (s : State) : State :=
  { s with activity := .idle }

/-- FIND_MATCH's local state is set up. -/
def State.putSearch (f : Search) (s : State) : State :=
  { s with activity := .finding f }

/-- COMPRESS's local state changes. -/
def State.putCompressor (c : Compressor) (s : State) : State :=
  { s with activity := .compressing c }

/-- DECOMPRESS's local state changes. -/
def State.putDecoder (d : Decoder) (s : State) : State :=
  { s with activity := .decompressing d }

/-- `BitAppend(ENC, w, v)` (R11). -/
def bitAppend (w v : Nat) (enc : Bits) : Bits :=
  enc ++ bitsOf w v

/-- `HistAppend(b)`, or none where it would make `len(OUT)` exceed MAX_OUTPUT_BYTES (R11, R81, R248). -/
def histAppend (p : Params) (b : Byte) (out : Bytes) : Option Bytes :=
  if beyond p.maxOutputBytes (out.length + 1) then none else some (out ++ [b])

/-- Append a byte for the token whose flag is at `flagOffset` and go to `fsm`, or end the command with CAPACITY (R241, R243,
R248). -/
def appendByte (flagOffset : Nat) (b : Byte) (fsm : Fsm) (d : Decoder) (s : State) : State :=
  match histAppend s.params b d.out with
  | none => raise (.capacity (.flagOffset flagOffset)) s
  | some out => s.putDecoder { d with out := out, fsm := fsm }

/-- The compressor at the start of COMPRESS: IN, the window latched from CFG, `CUR = 0`, `ENC = []` (R32, R35, R273). -/
def Compressor.start (data : Bytes) (w : Nat) : Compressor where
  input := data
  w := w
  cur := 0
  enc := []

/-- The decoder at the start of DECOMPRESS: `RP = 0`, `FSM = ReadFlag`, `OUT = []` (R37, R210, R274). -/
def Decoder.start (s : Bits) : Decoder where
  stream := s
  rp := 0
  fsm := .readFlag
  out := []

/-- Reset: CFG.WINDOW_SIZE is 20 and the core is idle; the command in flight, whichever it is and however far, is abandoned and
gets no response (R340, R341).
The parameters and the host's side stay (log 6). -/
def takeReset (s : State) : State :=
  { s with cfg := State.reset.cfg, activity := .idle, resetRequested := false }

end Sys2Proof.Machine
end

