-- ==== Sys2Proof/Machine/MatchFinder.lean ====
section
/-! DEFINITION. The match finder: FIND_LONGEST_MATCH by the reference algorithm (R148), and the normative definition it must
equal (R142 to R146). -/

namespace Sys2Proof.Machine

/-- The finder's working values (R36, R148): the candidate distance, its run count, and the best pair so far. They exist
inside one evaluation only (log 4). -/
structure FinderWork where
  d     : Nat
  k     : Nat
  bestL : Nat
  bestD : Nat
  deriving DecidableEq, Repr

/-- Target byte `k` at `pos` equals source byte `k` of the tiling of `data[pos−d..pos)` (R144). -/
def tileByteMatches (data : Bytes) (pos d k : Nat) : Bool :=
  memRead data (pos + k) == memRead data (pos - d + k % d)

/-- R148's `while` loop with `fuel` more bytes allowed: the run count it stops at. -/
def runFrom (data : Bytes) (pos d : Nat) : Nat → Nat → Nat
  | 0, k => k
  | fuel + 1, k => if tileByteMatches data pos d k then runFrom data pos d fuel (k + 1) else k

/-- `run(d)` (R149). -/
def runLength (data : Bytes) (pos d : Nat) : Nat :=
  runFrom data pos d (maxL data.length pos) 0

/-- One turn of R148's `for` loop: a strictly longer run of at least MIN_MATCH takes over, so the smaller distance keeps a
tie (R145, C2). -/
def FinderWork.consider (data : Bytes) (pos : Nat) (f : FinderWork) (d : Nat) : FinderWork :=
  if Config.minMatch ≤ runLength data pos d ∧ f.bestL < runLength data pos d then
    { d := d, k := runLength data pos d, bestL := runLength data pos d, bestD := d }
  else { f with d := d, k := runLength data pos d }

/-- The values R148 starts from. -/
def FinderWork.start : FinderWork := { d := 0, k := 0, bestL := 0, bestD := 0 }

/-- R148's whole `for` loop, by ascending distance `1 .. Dmax`. -/
def FinderWork.scan (data : Bytes) (pos w : Nat) : FinderWork :=
  (List.range' 1 (dMax w pos)).foldl (FinderWork.consider data pos) FinderWork.start

/-- FIND_LONGEST_MATCH(data, pos, W), for `pos < len(data)` (R140, R141, R146, R148). It writes nothing (R147). -/
def findLongestMatch (data : Bytes) (pos w : Nat) : Option (Nat × Nat) :=
  if (FinderWork.scan data pos w).bestL = 0 then none
  else some ((FinderWork.scan data pos w).bestD, (FinderWork.scan data pos w).bestL)

/-- `Matches(pos − d, L)` (R144). -/
abbrev TiledMatch (data : Bytes) (pos d len : Nat) : Prop :=
  ∀ k, k < len → data[pos + k]? = data[pos - d + k % d]?

/-- `(d, L) ∈ Cand` (R142, R143, R145). -/
abbrev Candidate (data : Bytes) (pos w d len : Nat) : Prop :=
  1 ≤ d ∧ d ≤ min w pos ∧ 2 ≤ len ∧ len ≤ min 15 (data.length - pos) ∧ TiledMatch data pos d len

end Sys2Proof.Machine
end

