-- ==== Sys2Proof/Machine/Commands.lean ====
section
/-! DEFINITION. The four host commands (44_host_commands.md R271 to R274). Start checks are made in the written order
(R275). -/

namespace Sys2Proof.Machine

/-- CONFIGURE once it starts (R271): an illegal window is rejected, never clamped (C3, D4). -/
def runConfigure (w : Nat) (s : State) : State :=
  if w < Config.windowMin ∨ Config.windowMax < w then raise (.configError w) s
  else finish .done (s.setWindow w)

/-- CONFIGURE(w) (R271). -/
def execConfigure (w : Nat) (s : State) : StepOutcome :=
  whenIdle (.configure w) s (runConfigure w s)

/-- FIND_MATCH once it starts (R272): capacity, then position, then IN, the position and the window latched now (R32, R35).
The search is `searchStep`'s. -/
def runFindMatch (data : Bytes) (pos : Nat) (s : State) : State :=
  if beyond s.params.maxInputBytes data.length then raise (.capacity (.length data.length)) s
  else if data.length ≤ pos then raise (.badArgument pos) s
  else s.putSearch { input := data, w := s.windowSize, pos := pos }

/-- The rest of FIND_MATCH (R272): the match finder's result under the latched window is the response. -/
def searchStep (f : Search) (s : State) : State :=
  finish (.found (findLongestMatch f.input f.pos f.w)) s

/-- FIND_MATCH(data, pos) (R272). -/
def execFindMatch (data : Bytes) (pos : Nat) (s : State) : StepOutcome :=
  whenIdle (.findMatch data pos) s (runFindMatch data pos s)

/-- COMPRESS once it starts, up to its first encoder step (R273); the following steps are `compressStep`'s. -/
def runCompress (data : Bytes) (s : State) : State :=
  if beyond s.params.maxInputBytes data.length then raise (.capacity (.length data.length)) s
  else s.putCompressor (Compressor.start data s.windowSize)

/-- COMPRESS(data) (R273). -/
def execCompress (data : Bytes) (s : State) : StepOutcome :=
  whenIdle (.compress data) s (runCompress data s)

/-- DECOMPRESS once it starts, up to its first token (R274); CFG is not read (R217). -/
def runDecompress (bytes : Bytes) (s : State) : State :=
  if beyond s.params.maxStreamBytes bytes.length then raise (.capacity (.length bytes.length)) s
  else s.putDecoder (Decoder.start (unpack bytes))

/-- DECOMPRESS(bytes) (R274). -/
def execDecompress (bytes : Bytes) (s : State) : StepOutcome :=
  whenIdle (.decompress bytes) s (runDecompress bytes s)

end Sys2Proof.Machine
end

