-- ==== Sys2Proof/Machine/Tokens.lean ====
section
/-! DEFINITION. The execution of the two tokens (R213, R214) and the replay engine's copy step (R243). -/

namespace Sys2Proof.Machine

/-- LIT, ReadLiteral (R213): pop the 8 bits of `b`, LITERAL_APPEND(b) (R241), back to ReadFlag. R211 left at least 8 bits
after the flag; if fewer were left, the pop would leave S. -/
def execLit (b : Byte) (s : State) : StepOutcome :=
  match s.atPayload false with
  | none => .refused .tokenOutsideStream
  | some d =>
    if d.remaining < Config.litBits then .fault .streamOutOfRange
    else .next (appendByte (d.rp - 1) b .readFlag { d with rp := d.rp + Config.litBits } s)

/-- MATCH after its fields are assembled and RP is past the payload (R214, R216): the distance check, whatever the length,
then Copy, or ReadFlag for a length of 0. -/
def startCopy (d len : Nat) (dec : Decoder) (s : State) : State :=
  if d = 0 ∨ dec.out.length < d then raise (.decodeDistance (dec.rp - Config.matchTokenBits) d len) s
  else if len = 0 then s.putDecoder { dec with fsm := .readFlag }
  else s.putDecoder { dec with fsm := .copy d len }

/-- MATCH, ReadMatch (R214): DECODE_TRUNCATED if fewer than 16 bits follow the flag (R215), else pop them and start the
copy. -/
def execMatchTok (d len : Nat) (s : State) : StepOutcome :=
  match s.atPayload true with
  | none => .refused .tokenOutsideStream
  | some dec =>
    if dec.remaining < Config.matchPayloadBits then .next (raise (.decodeTruncated (dec.rp - 1)) s)
    else .next (startCopy d len { dec with rp := dec.rp + Config.matchPayloadBits } s)

/-- The state after a copy step that leaves `rem` bytes to copy (R243). -/
def Fsm.afterCopy (d rem : Nat) : Fsm :=
  if rem = 0 then .readFlag else .copy d rem

/-- COPY_STEP (R243): read back `COPY_D` from the current end of OUT, append, count down (R83, R242, R345). -/
def copyStep (d rem : Nat) (dec : Decoder) (s : State) : StepOutcome :=
  match histRead dec.out d with
  | none => .fault .historyOutOfRange
  | some b => .next (appendByte (dec.rp - Config.matchTokenBits) b (Fsm.afterCopy d (rem - 1)) dec s)

end Sys2Proof.Machine
end

