-- ==== Sys2Proof/Machine/Dispatch.lean ====
section
/-! DEFINITION. One arm per row of spec/opcode_table.json. -/

namespace Sys2Proof.Machine

def exec (i : Instr) (s : State) : Host.Outcome State Fault Refusal :=
  match i with
  | .lit b => Sys2Proof.Machine.execLit b s
  | .matchTok d len => Sys2Proof.Machine.execMatchTok d len s
  | .configure w => Sys2Proof.Machine.execConfigure w s
  | .findMatch data pos => Sys2Proof.Machine.execFindMatch data pos s
  | .compress data => Sys2Proof.Machine.execCompress data s
  | .decompress bytes => Sys2Proof.Machine.execDecompress bytes s

end Sys2Proof.Machine
end

