-- ==== Sys2Proof/Machine/Encoder.lean ====
section
/-! DEFINITION. The token encoder: EMIT_LIT, EMIT_MATCH, the encoder step, and the pad and pack that end COMPRESS. -/

namespace Sys2Proof.Machine

/-- EMIT_LIT(b) (41_token_encoder.md R182). -/
def emitLit (b : Byte) (enc : Bits) : Bits :=
  bitAppend 8 b.toNat (bitAppend 1 0 enc)

/-- EMIT_MATCH(d, L) (R183). -/
def emitMatch (d len : Nat) (enc : Bits) : Bits :=
  bitAppend 8 (lowByte d len) (bitAppend 8 (highByte d) (bitAppend 1 1 enc))

/-- ENCODER_STEP (R181), taken while `CUR < n`; none if CUR stood outside IN. -/
def encoderStep (c : Compressor) : Option Compressor :=
  match findLongestMatch c.input c.cur c.w with
  | some (d, len) => some { c with enc := emitMatch d len c.enc, cur := c.cur + len }
  | none =>
    match memRead c.input c.cur with
    | some b => some { c with enc := emitLit b c.enc, cur := c.cur + 1 }
    | none => none

/-- PAD (R185). -/
def padStep (enc : Bits) : Bits :=
  bitAppend (padCount enc.length) 0 enc

/-- PACK (R186). -/
def packStep (enc : Bits) : Bytes :=
  pack enc

/-- One step of COMPRESS: an encoder step while `CUR < n`, then pad, pack and the response (R180, R273). -/
def compressStep (c : Compressor) (s : State) : StepOutcome :=
  if c.cur < c.n then
    match encoderStep c with
    | some c' => .next (s.putCompressor c')
    | none => .fault .inputOutOfRange
  else .next (finish (.bytes (packStep (padStep c.enc))) s)

end Sys2Proof.Machine
end

