-- ==== Sys2Proof/Machine/Fetch.lean ====
section
/-! DEFINITION. What the next step is: reset, a command, a step of an engine, or nothing to do. -/

namespace Sys2Proof.Machine

/-- What the next step does. -/
inductive Action where
  /-- The host's reset (R340, R341). -/
  | reset
  /-- Idle with nothing to do (R318). -/
  | stayIdle
  /-- The idle core takes the host's next command (R277). -/
  | accept (c : Command) (rest : List Command)
  /-- The command that was taken starts (R271 to R274). -/
  | start (c : Command)
  /-- FIND_MATCH searches and answers (R272). -/
  | find (f : Search)
  /-- COMPRESS goes on (R180). -/
  | encode (c : Compressor)
  /-- DECOMPRESS ends with OUT (R211). -/
  | endOfStream (out : Bytes)
  /-- DECOMPRESS executes a token of S (R212 to R214). -/
  | token (i : Instr)
  /-- A MATCH flag with fewer than 16 bits after it (R215): the flag's offset. -/
  | truncated (flagOffset : Nat)
  /-- DECOMPRESS copies one byte (R243). -/
  | copy (d rem : Nat) (dec : Decoder)
  deriving DecidableEq, Repr

/-- The token fetch at ReadFlag: the terminal check, then the flag and the payload at RP (R211 to R214). -/
def Decoder.fetch (d : Decoder) : Action :=
  match decodeToken (d.stream.drop d.rp) with
  | .token i _ => .token i
  | .reject (.endOfStream _) => .endOfStream d.out
  | .reject (.truncatedMatch _) => .truncated d.rp

/-- What DECOMPRESS does next in each state of R210. At ReadLiteral and ReadMatch the flag is already popped and only the
payload is read. -/
def Decoder.action (d : Decoder) : Action :=
  match d.fsm with
  | .readFlag => d.fetch
  | .readLiteral => .token (.lit (BitVec.ofNat 8 (bitRead d.stream d.rp 8)))
  | .readMatch =>
    if d.remaining < Config.matchPayloadBits then .truncated (d.rp - 1)
    else
      .token (.matchTok (distanceOf (bitRead d.stream d.rp 8) (bitRead d.stream (d.rp + 8) 8))
        (lengthOf (bitRead d.stream (d.rp + 8) 8)))
  | .copy cd rem => .copy cd rem d

/-- What an idle core does: it takes the host's first waiting command, if there is one (R277). -/
def idleAction (waiting : List Command) : Action :=
  match waiting with
  | [] => .stayIdle
  | c :: rest => .accept c rest

/-- What the next step of the machine does. -/
def nextAction (s : State) : Action :=
  if s.resetRequested then .reset
  else
    match s.activity with
    | .idle => idleAction s.waiting
    | .accepted c => .start c
    | .finding f => .find f
    | .compressing c => .encode c
    | .decompressing d => d.action

/-- Put a token's bits, padded to whole bytes, at the start of a fresh DECOMPRESS (log 10). -/
def placeFresh (t : Bits) (s : State) : State :=
  { s with activity := .decompressing (Decoder.start (padded t)), resetRequested := false }

/-- Put a token's bits where the next token is fetched, padded to whole bytes: at RP of a running DECOMPRESS, else at the
start of a fresh one (log 10). -/
def placeToken (t : Bits) (s : State) : State :=
  match s.activity with
  | .idle => placeFresh t s
  | .accepted _ => placeFresh t s
  | .finding _ => placeFresh t s
  | .compressing _ => placeFresh t s
  | .decompressing d =>
    { s with
      activity := .decompressing
        { d with
          stream := padded (d.stream.take d.rp ++ t)
          rp := (d.stream.take d.rp).length
          fsm := .readFlag }
      resetRequested := false }

end Sys2Proof.Machine
end

