-- ==== Sys2Proof/Machine/Step.lean ====
section
/-! DEFINITION. One step of the machine, and the placing of a word where it is fetched. -/

namespace Sys2Proof.Machine

/-- One step: what `nextAction` says, done by the meaning, the engine or the host interface it names. A token or a command is
run by `exec`. -/
def step (s : State) : Host.Outcome State Fault Refusal :=
  match nextAction s with
  | .reset => .next (takeReset s)
  | .stayIdle => .next s
  | .accept c rest => .next (accept c rest s)
  | .start c => exec c.toInstr s.asIdle
  | .find f => .next (searchStep f s)
  | .encode c => compressStep c s
  | .endOfStream out => .next (finish (.bytes out) s)
  | .token i => exec i s
  | .truncated k => .next (raise (.decodeTruncated k) s)
  | .copy d rem dec => copyStep d rem dec s

/-- The state with a table word placed where the next step fetches it; it stands for the host's DECOMPRESS of a stream that
begins with the token (log 10). -/
def State.withFetchWord (s : State) (nbits w : Nat) : State :=
  placeToken (tokenBits nbits w) s

end Sys2Proof.Machine
end

