-- ==== Sys2Proof/Machine/Adapter.lean ====
section
/-! DEFINITION. The host adapter of 44_host_commands.md R276: the caller-facing calls, carried out around the core. File
access is outside the core (00_scope.md R5 (a)); only here does IO_ERROR arise (60_exceptions.md R302). -/

namespace Sys2Proof.Machine

/-- A caller-facing call (R276). A window is given or not. -/
inductive Call where
  | compress (input output : Path) (window : Option Nat)
  | decompress (input output : Path)
  deriving DecidableEq, Repr

/-- The call's input path. -/
def Call.input : Call → Path
  | .compress input _ _ => input
  | .decompress input _ => input

/-- The call's output path. -/
def Call.output : Call → Path
  | .compress _ output _ => output
  | .decompress _ output => output

/-- The core's command for the call's data (R276). -/
def Call.command : Call → Bytes → Command
  | .compress _ _ _, data => .compress data
  | .decompress _ _, data => .decompress data

/-- The CONFIGURE that comes first, or nothing if the caller gave no window (R276 step 1). -/
def Call.window : Call → Option Nat
  | .compress _ _ window => window
  | .decompress _ _ => none

/-- The files the adapter reads and writes whole (R276, log 14). A path without contents is unreadable. -/
structure Files where
  contents   : List (Path × Bytes)
  unreadable : List Path
  unwritable : List Path
  deriving DecidableEq, Repr

/-- Read a file whole, or fail (R302). -/
def Files.read (f : Files) (p : Path) : Option Bytes :=
  if p ∈ f.unreadable then none else f.contents.lookup p

/-- Write a file whole, or fail (R302). -/
def Files.write (f : Files) (p : Path) (bs : Bytes) : Option Files :=
  if p ∈ f.unwritable then none
  else some { f with contents := (p, bs) :: f.contents.filter fun e => e.1 != p }

/-- What the caller gets: success or an error, the core's passed on unchanged (R276, C5). -/
inductive CallResult where
  | success
  | failed (e : Error)
  deriving DecidableEq, Repr

/-- How far the call in progress is. `expect` is the index among the core's responses of the one awaited. -/
inductive Phase where
  | ready
  | configuring (call : Call) (expect : Nat)
  | reading (call : Call)
  | running (call : Call) (expect : Nat)
  | writing (call : Call) (data : Bytes)
  deriving DecidableEq, Repr

/-- The adapter: the calls still to make, the phase, the files and the results given. -/
structure Adapter where
  calls   : List Call
  phase   : Phase
  files   : Files
  results : List CallResult
  deriving DecidableEq, Repr

/-- The adapter and the core it drives. -/
structure System where
  adapter : Adapter
  core    : State
  deriving DecidableEq, Repr

/-- What a step of the adapter and its core gives. -/
abbrev SystemOutcome := Host.Outcome System Fault Refusal

/-- The adapter waits while the core steps: it is synchronous (R276, R277). -/
def System.coreStep (sys : System) : SystemOutcome :=
  match step sys.core with
  | .next t => .next { sys with core := t }
  | .fault r => .fault r
  | .refused r => .refused r

/-- The call in progress ends with a result. -/
def System.endCall (r : CallResult) (sys : System) : System :=
  { sys with adapter := { sys.adapter with phase := .ready, results := sys.adapter.results ++ [r] } }

/-- The adapter goes on to a phase. -/
def System.goto (ph : Phase) (sys : System) : System :=
  { sys with adapter := { sys.adapter with phase := ph } }

/-- The adapter hands the core a command, to be answered as the next response. -/
def System.issue (c : Command) (ph : Nat → Phase) (sys : System) : System :=
  { adapter := { sys.adapter with phase := ph sys.core.responses.length }
    core := { sys.core with waiting := [c] } }

/-- The core is idle and nobody waits for it, so the adapter may use it (log 15). -/
def State.free (s : State) : Bool :=
  !s.resetRequested && s.activity == .idle && s.waiting.isEmpty

/-- R276 step 1: CONFIGURE, or straight to the file if there is no window to set. -/
def System.startCall (call : Call) (rest : List Call) (sys : System) : System :=
  let taken : System := { sys with adapter := { sys.adapter with calls := rest } }
  match call.window with
  | some w => taken.issue (.configure w) (.configuring call)
  | none => taken.goto (.reading call)

/-- One step of the adapter, or of the core while the adapter waits for it (R276). -/
def System.step (sys : System) : SystemOutcome :=
  match sys.adapter.phase with
  | .ready =>
    match sys.adapter.calls with
    | [] => sys.coreStep
    | call :: rest => if sys.core.free then .next (sys.startCall call rest) else sys.coreStep
  | .configuring call expect =>
    match sys.core.responses[expect]? with
    | none => sys.coreStep
    | some (.ok _) => .next (sys.goto (.reading call))
    | some (.err e) => .next (sys.endCall (.failed e))
  | .reading call =>
    match sys.adapter.files.read call.input with
    | none => .next (sys.endCall (.failed (.ioError call.input .read)))
    | some data => .next (sys.issue (call.command data) (.running call))
  | .running call expect =>
    match sys.core.responses[expect]? with
    | none => sys.coreStep
    | some (.ok (.bytes bs)) => .next (sys.goto (.writing call bs))
    | some (.ok .done) => sys.coreStep
    | some (.ok (.found _)) => sys.coreStep
    | some (.err e) => .next (sys.endCall (.failed e))
  | .writing call bs =>
    match sys.adapter.files.write call.output bs with
    | none => .next (sys.endCall (.failed (.ioError call.output .write)))
    | some files =>
      .next (System.endCall .success { sys with adapter := { sys.adapter with files := files } })

/-- `k` steps of the adapter and its core. -/
def System.run : Nat → System → SystemOutcome
  | 0, sys => .next sys
  | k + 1, sys =>
    match sys.step with
    | .next sys' => System.run k sys'
    | .fault r => .fault r
    | .refused r => .refused r

end Sys2Proof.Machine
end

