-- ==== Sys2Proof/Machine/Listing.lean ====
section
/-! DEFINITION. The text of a token listing (30_encoding.md R111), line by line. `Sys2Proof.assemble` makes bits of it. -/

namespace Sys2Proof.Machine.Listing

/-- A decimal digit. -/
def decimalDigit (c : Char) : Option Nat :=
  if 48 ≤ c.toNat ∧ c.toNat ≤ 57 then some (c.toNat - 48) else none

/-- A hexadecimal digit, of either case (log 20). -/
def hexDigit (c : Char) : Option Nat :=
  if 65 ≤ c.toNat ∧ c.toNat ≤ 70 then some (c.toNat - 55)
  else if 97 ≤ c.toNat ∧ c.toNat ≤ 102 then some (c.toNat - 87)
  else decimalDigit c

/-- The number that digits spell after the value `acc`. -/
def numberFrom (digit : Char → Option Nat) (base : Nat) : Nat → List Char → Option Nat
  | acc, [] => some acc
  | acc, c :: cs =>
    match digit c with
    | some v => numberFrom digit base (base * acc + v) cs
    | none => none

/-- A number of one digit or more. -/
def number (digit : Char → Option Nat) (base : Nat) (s : List Char) : Option Nat :=
  if s.isEmpty then none else numberFrom digit base 0 s

/-- A natural in decimal. -/
def decimal (s : List Char) : Option Nat :=
  number decimalDigit 10 s

/-- A byte: `0x` and hexadecimal digits, or a printable ASCII character in quotes, standing for its code (R111, G2). -/
def byteText (s : List Char) : Option Nat :=
  match s with
  | ['\'', c, '\''] => if 32 ≤ c.toNat ∧ c.toNat ≤ 126 then some c.toNat else none
  | '0' :: 'x' :: digits => number hexDigit 16 digits
  | _ => none

/-- The two operands of a MATCH, split at the first comma, one space after it (R111). -/
def pairFrom : List Char → List Char → Option (Nat × Nat)
  | _, [] => none
  | before, ',' :: ' ' :: rest =>
    match decimal before.reverse, decimal rest with
    | some d, some len => some (d, len)
    | _, _ => none
  | before, c :: rest => pairFrom (c :: before) rest

/-- The operand between a keyword and a closing text. -/
def between (keyword close s : List Char) : Option (List Char) :=
  match keyword.isPrefixOf? s with
  | some rest => close.isSuffixOf? rest
  | none => none

/-- A LIT line, in the listing's spelling or the source's (R111). -/
def litText (s : List Char) : Option Line :=
  match between ['L', 'I', 'T', ' '] [] s with
  | some rest => (byteText rest).map .lit
  | none => (between ['L', 'i', 't', 'e', 'r', 'a', 'l', '('] [')'] s).bind fun rest => (byteText rest).map .lit

/-- A MATCH line, in the listing's spelling or the source's (R111). -/
def matchText (s : List Char) : Option Line :=
  match between ['M', 'A', 'T', 'C', 'H', ' '] [] s with
  | some rest => (pairFrom [] rest).map fun dl => .matchLine dl.1 dl.2
  | none =>
    (between ['M', 'a', 't', 'c', 'h', '('] [')'] s).bind fun rest =>
      (pairFrom [] rest).map fun dl => .matchLine dl.1 dl.2

/-- A PAD line (R111). -/
def padText (s : List Char) : Option Line :=
  (between ['P', 'A', 'D', ' '] [] s).bind fun rest => (decimal rest).map .pad

/-- One line of a listing, or none where no line of R111 is spelled. Ranges are checked by `Line.wellFormed` (R112). -/
def parseLine (s : List Char) : Option Line :=
  match litText s with
  | some l => some l
  | none =>
    match matchText s with
    | some l => some l
    | none => padText s

/-- The lines of a listing. -/
def parseLines (lines : List (List Char)) : Option (List Line) :=
  lines.mapM parseLine

/-- A listing's text assembled to bits (R111). -/
def assembleText (lines : List (List Char)) : Option Bits :=
  (parseLines lines).bind assemble

end Sys2Proof.Machine.Listing
end

