-- ==== Sys2Proof/Machine/Transaction.lean ====
section
/-! DEFINITION. Each command as one function of its operands (D1, R219, R270, R279): what the step machine refines (R41). -/

namespace Sys2Proof.Machine

/-- MATCH_COPY(d, L) for the token whose flag is at `flagOffset` (43_replay_engine.md R242), with the capacity check of R248
before each append. A read outside OUT cannot occur after the distance check (R246); it would be the distance error. -/
def matchCopy (p : Params) (flagOffset d : Nat) : Nat → Bytes → Except Error Bytes
  | 0, out => .ok out
  | len + 1, out =>
    match histRead out d with
    | none => .error (.decodeDistance flagOffset d (len + 1))
    | some b =>
      match histAppend p b out with
      | none => .error (.capacity (.flagOffset flagOffset))
      | some out' => matchCopy p flagOffset d len out'

/-- The effect on OUT of a LIT whose flag is at `flagOffset` (R241, R248). -/
def replayLit (p : Params) (flagOffset : Nat) (b : Byte) (out : Bytes) : Except Error Bytes :=
  match histAppend p b out with
  | none => .error (.capacity (.flagOffset flagOffset))
  | some out' => .ok out'

/-- The effect on OUT of a MATCH whose flag is at `flagOffset` (R214, R216, R242). -/
def replayMatch (p : Params) (flagOffset d len : Nat) (out : Bytes) : Except Error Bytes :=
  if d = 0 ∨ out.length < d then .error (.decodeDistance flagOffset d len)
  else matchCopy p flagOffset d len out

/-- DECOMPRESS_CORE (42_token_decoder.md R219) from RP and OUT, with at most `fuel` tokens left. Every token takes 9 bits or
more (R222), so `fuel = N` never ends it early. -/
def decompressFrom (p : Params) (s : Bits) : Nat → Nat → Bytes → Except Error Bytes
  | 0, _, out => .ok out
  | fuel + 1, rp, out =>
    if s.length - rp < Config.terminalBits then .ok out
    else if bitRead s rp 1 = 0 then
      match replayLit p rp (BitVec.ofNat 8 (bitRead s (rp + 1) 8)) out with
      | .error e => .error e
      | .ok out' => decompressFrom p s fuel (rp + 9) out'
    else if s.length - (rp + 1) < Config.matchPayloadBits then .error (.decodeTruncated rp)
    else
      match replayMatch p rp (distanceOf (bitRead s (rp + 1) 8) (bitRead s (rp + 9) 8))
          (lengthOf (bitRead s (rp + 9) 8)) out with
      | .error e => .error e
      | .ok out' => decompressFrom p s fuel (rp + 17) out'

/-- DECOMPRESS_CORE(S) (R219). -/
def decompressCore (p : Params) (s : Bits) : Except Error Bytes :=
  decompressFrom p s s.length 0 []

/-- COMPRESS's loop with at most `fuel` encoder steps (R180). `fuel = n` never ends it early (R184). -/
def encodeLoop : Nat → Compressor → Compressor
  | 0, c => c
  | fuel + 1, c =>
    if c.cur < c.n then
      match encoderStep c with
      | some c' => encodeLoop fuel c'
      | none => c
    else c

/-- ENC at the end of COMPRESS's loop, before the pad (R180). -/
def encodedBits (w : Nat) (data : Bytes) : Bits :=
  (encodeLoop data.length (Compressor.start data w)).enc

/-- COMPRESS's result (R180, R185, R186). -/
def compressBytes (w : Nat) (data : Bytes) : Bytes :=
  packStep (padStep (encodedBits w data))

/-- The tokens of the greedy parse from a position (R181), with at most `fuel` tokens. -/
def parseFrom (w : Nat) (data : Bytes) : Nat → Nat → List Instr
  | 0, _ => []
  | fuel + 1, pos =>
    if pos < data.length then
      match findLongestMatch data pos w with
      | some (d, len) => .matchTok d len :: parseFrom w data fuel (pos + len)
      | none =>
        match memRead data pos with
        | some b => .lit b :: parseFrom w data fuel (pos + 1)
        | none => []
    else []

/-- The tokens COMPRESS emits, in order (R181). -/
def parse (w : Nat) (data : Bytes) : List Instr :=
  parseFrom w data data.length 0

/-- The number of bytes a token stands for (R187). -/
def spanOf : Instr → Nat
  | .lit _ => 1
  | .matchTok _ len => len
  | .configure _ => 0
  | .findMatch _ _ => 0
  | .compress _ => 0
  | .decompress _ => 0

/-- Tokens replayed one after another from OUT, the first one's flag at `offset` (R218 to R220); a command is no token. -/
def replay (p : Params) : Nat → List Instr → Bytes → Except Error Bytes
  | _, [], out => .ok out
  | offset, .lit b :: rest, out =>
    match replayLit p offset b out with
    | .error e => .error e
    | .ok out' => replay p (offset + 9) rest out'
  | offset, .matchTok d len :: rest, out =>
    match replayMatch p offset d len out with
    | .error e => .error e
    | .ok out' => replay p (offset + 17) rest out'
  | _, .configure _ :: _, out => .ok out
  | _, .findMatch _ _ :: _, out => .ok out
  | _, .compress _ :: _, out => .ok out
  | _, .decompress _ :: _, out => .ok out

/-- A result of DECOMPRESS_CORE as a response (R218). -/
def responseOf (r : Except Error Bytes) : Response :=
  match r with
  | .ok out => .ok (.bytes out)
  | .error e => .err e

/-- The response of a command, a function of its operands, the window and the capacities (R279; R271 to R274). -/
def responseTo (p : Params) (window : Nat) : Command → Response
  | .configure w => if w < Config.windowMin ∨ Config.windowMax < w then .err (.configError w) else .ok .done
  | .findMatch data pos =>
    if beyond p.maxInputBytes data.length then .err (.capacity (.length data.length))
    else if data.length ≤ pos then .err (.badArgument pos)
    else .ok (.found (findLongestMatch data pos window))
  | .compress data =>
    if beyond p.maxInputBytes data.length then .err (.capacity (.length data.length))
    else .ok (.bytes (compressBytes window data))
  | .decompress bytes =>
    if beyond p.maxStreamBytes bytes.length then .err (.capacity (.length bytes.length))
    else responseOf (decompressCore p (unpack bytes))

/-- CFG after a command: written by a CONFIGURE with a legal window, and by nothing else (R31). -/
def windowAfter (cfg : BitVec 9) : Command → BitVec 9
  | .configure w => if w < Config.windowMin ∨ Config.windowMax < w then cfg else BitVec.ofNat 9 w
  | .findMatch _ _ => cfg
  | .compress _ => cfg
  | .decompress _ => cfg

/-- How many bytes a list of tokens stands for (R187). -/
def spanSum (tokens : List Instr) : Nat :=
  (tokens.map spanOf).sum

/-- A token is a LIT, for counting them (R187). -/
def isLit : Instr → Bool
  | .lit _ => true
  | .matchTok _ _ => false
  | .configure _ => false
  | .findMatch _ _ => false
  | .compress _ => false
  | .decompress _ => false

/-- The error codes of 60_exceptions.md R300. The numbers are labels (D5); code 0 is unused. -/
def Error.code : Error → Nat
  | .configError _ => 1
  | .decodeDistance _ _ _ => 2
  | .decodeTruncated _ => 3
  | .capacity _ => 4
  | .badArgument _ => 5
  | .ioError _ _ => 6

/-- The capacities let every output of COMPRESS back in: `MAX_STREAM_BYTES ≥ ⌈9·MAX_INPUT_BYTES / 8⌉` (R81, D12). -/
def consistentCapacities (p : Params) : Bool :=
  match p.maxInputBytes, p.maxStreamBytes with
  | _, none => true
  | none, some _ => false
  | some i, some m => decide ((9 * i + 7) / 8 ≤ m)

end Sys2Proof.Machine
end

