-- ==== Sys2Proof/Safety.lean ====
section
/-! DEFINITION. The form the buffers keep, the invariant of the machine, and runs. -/

namespace Sys2Proof.Machine

/-- The decoder's state fits the stream and the history: a payload is left to pop, and a copy reads inside OUT (R211 to R214,
R216, R246). -/
def Decoder.fsmFits (d : Decoder) : Bool :=
  match d.fsm with
  | .readFlag => true
  | .readLiteral => decide (1 ≤ d.rp) && decide (Config.litBits ≤ d.remaining)
  | .readMatch => decide (1 ≤ d.rp)
  | .copy cd rem =>
    decide (Config.matchTokenBits ≤ d.rp) && decide (1 ≤ cd) && decide (cd ≤ d.out.length) &&
      decide (cd < 2 ^ Config.distBits) && decide (1 ≤ rem) && decide (rem < 2 ^ Config.lenBits)

/-- IN is within its capacity, W is the latched CFG and the position is inside IN (R32, R35, R70, R272). -/
def Search.fits (p : Params) (window : Nat) (f : Search) : Bool :=
  !beyond p.maxInputBytes f.input.length && decide (f.w = window) && decide (f.pos < f.input.length)

/-- IN is within its capacity, W is the latched CFG and CUR is inside IN (R32, R35, R38, R70). -/
def Compressor.fits (p : Params) (window : Nat) (c : Compressor) : Bool :=
  !beyond p.maxInputBytes c.n && decide (c.w = window) && decide (c.cur ≤ c.n)

/-- S is whole bytes within its capacity, RP is inside S, OUT is within its capacity (R37, R38, R70). -/
def Decoder.fits (p : Params) (d : Decoder) : Bool :=
  decide (d.n % 8 = 0) && !beyond p.maxStreamBytes (d.n / 8) && decide (d.rp ≤ d.n) &&
    !beyond p.maxOutputBytes d.out.length && d.fsmFits

/-- The form of the core's memory, its four buffers (R70). They are sequences from 0 without holes, so a list is already its
canonical form (log 13); what can go wrong is a size or a pointer. -/
def Memory.wf (s : State) : Bool :=
  match s.activity with
  | .idle => true
  | .accepted _ => true
  | .finding f => f.fits s.params s.windowSize
  | .compressing c => c.fits s.params s.windowSize
  | .decompressing d => d.fits s.params

/-- CFG always holds a legal window (R31, R273), and the buffers have their form. -/
structure State.Inv (s : State) : Prop where
  windowLegal : Config.windowMin ≤ s.windowSize ∧ s.windowSize ≤ Config.windowMax
  memoryFits  : Memory.wf s = true

/-- `k` steps of the core, stopping at a fault or a refusal: the host's `Host.Core.run` of this core
(`runSteps_eq_core_run`). -/
def runSteps : Nat → State → StepOutcome
  | 0, s => .next s
  | k + 1, s =>
    match step s with
    | .next s' => runSteps k s'
    | .fault r => .fault r
    | .refused r => .refused r

/-- `k` steps of the core lead from `s` to `t`. -/
def Runs (k : Nat) (s t : State) : Prop :=
  runSteps k s = .next t

end Sys2Proof.Machine
end

