-- ==== Sys2Proof/Certificates/Slice0/Obligations.lean ====
section
/-! DEFINITION. The statements for the provers: what spec/'s rules say the core does. R<n> is a rule of spec/, D<n> a decision
of 92_eei_decisions.md, "log <n>" a row of notes/assumptions/. A statement that rests on a decision of the spec (D<n>), on a
derived rule or on the log has basis 'derived' in OBLIGATIONS.json. -/

open Sys2Proof Sys2Proof.Machine

/-! ## Reset, the step, and the machine as a whole -/

/-- R340: reset sets CFG.WINDOW_SIZE to 20 and leaves the core idle (the spec's decision D19). -/
def Obligations.ResetLeavesWindowTwentyAndIdle : Prop :=
  State.reset.windowSize = 20 ∧ State.reset.activity = .idle

/-- The invariant holds after reset. -/
def Obligations.ResetMeetsTheInvariant : Prop :=
  State.Inv State.reset

/-- R31, R32, R35, R37, R38, R70, R211 to R216, R246: every step keeps a legal window and every buffer and pointer in range. -/
def Obligations.EveryStepKeepsTheInvariant : Prop :=
  ∀ s t : State, State.Inv s → step s = .next t → State.Inv t

/-- R71, R80, R213, R246: inside the invariant no step reads outside a buffer or meets an instruction without a meaning, so
every step answers a next state. -/
def Obligations.NoStepStopsInsideTheInvariant : Prop :=
  ∀ s : State, State.Inv s → ∃ t, step s = .next t

/-- R340, R341 (D19): a requested reset sets the window to 20 and abandons the command in flight, whichever it is and however
far, without a response. That the
host's waiting commands and the parameters stay is the model's choice (log 6). -/
def Obligations.ResetRequestAbandonsTheCommand : Prop :=
  ∀ s : State, s.resetRequested = true →
    step s = .next { s with cfg := 20#9, activity := .idle, resetRequested := false }

/-- R277, R318: the idle core takes the host's first waiting command, which is then in flight, and does nothing when there is
none; the step after the taking is the execution of that command. That the taking is a step of its own is the model's choice
(log 1), and the waiting list is the model's own field (log 5). -/
def Obligations.IdleStepRunsTheWaitingCommand : Prop :=
  ∀ s : State, s.resetRequested = false →
    (∀ c rest, s.activity = .idle → s.waiting = c :: rest →
      step s = .next { s with waiting := rest, activity := .accepted c }) ∧
    (∀ c, s.activity = .accepted c → step s = exec c.toInstr { s with activity := .idle }) ∧
    (s.activity = .idle → s.waiting = [] → step s = .next s)

/-- R211 to R215: when the bits at RP decode to a token, the step is the execution of that token, from ReadFlag and from the
state the popped flag chose; at ReadMatch with fewer than 16 bits left it is DECODE_TRUNCATED with the flag's offset. That a
step from ReadFlag executes the flag and the payload together is the model's inference (log 1, DEDUCED from R222 and R347). -/
def Obligations.TokenStepRunsTheDecodedToken : Prop :=
  ∀ (s : State) (dec : Decoder), s.resetRequested = false → s.activity = .decompressing dec →
    (∀ i rest, dec.fsm = .readFlag → decodeToken (dec.stream.drop dec.rp) = .token i rest →
      step s = exec i s ∧ i.isToken = true ∧ i.wellFormed = true) ∧
    (dec.fsm = .readLiteral →
      step s = exec (.lit (BitVec.ofNat 8 (bitRead dec.stream dec.rp 8))) s) ∧
    (dec.fsm = .readMatch → dec.rp + 16 ≤ dec.stream.length →
      step s = exec (.matchTok (distanceOf (bitRead dec.stream dec.rp 8) (bitRead dec.stream (dec.rp + 8) 8))
        (lengthOf (bitRead dec.stream (dec.rp + 8) 8))) s) ∧
    (dec.fsm = .readMatch → dec.stream.length < dec.rp + 16 →
      step s = .next { s with
        activity := .idle
        responses := s.responses ++ [.err (.decodeTruncated (dec.rp - 1))] })

/-- The placing of a table word (the model's `withFetchWord`, log 10): the next step is the execution of the instruction the
decoder reads from the word. -/
def Obligations.PlacedWordIsExecutedNext : Prop :=
  ∀ (s : State) (nbits w : Nat) (i : Instr), decodeTableWord nbits w = some i →
    step (s.withFetchWord nbits w) = exec i (s.withFetchWord nbits w)

/-- R270, R277: a step gives at most one response, and a step that gives one leaves the core idle. -/
def Obligations.StepGivesAtMostOneResponse : Prop :=
  ∀ s t : State, step s = .next t →
    t.responses = s.responses ∨ ∃ r, t.responses = s.responses ++ [r] ∧ t.activity = .idle

/-- R310 (D11): an error response leaves the core idle, so that OUT and ENC are gone, and CFG unchanged. -/
def Obligations.ErrorResponseDiscardsTheCommand : Prop :=
  ∀ (s t : State) (e : Error), step s = .next t → t.responses = s.responses ++ [.err e] →
    t.activity = .idle ∧ t.cfg = s.cfg ∧ t.params = s.params

/-- R302 (D20): the core never answers IO_ERROR. -/
def Obligations.CoreNeverAnswersIoError : Prop :=
  ∀ (s t : State) (path : Path) (dir : Direction), step s = .next t →
    t.responses ≠ s.responses ++ [.err (.ioError path dir)]

/-- R34, R279: no step reads the responses already given: with any others before them it does the same. -/
def Obligations.EarlierResponsesAreNeverRead : Prop :=
  ∀ (s t : State) (old : List Response), step s = .next t →
    step { s with responses := old ++ s.responses } = .next { t with responses := old ++ t.responses }

/-- R31: whatever the step, CFG changes only by a requested reset or by the start of a CONFIGURE with a legal window that the
core has taken, and then to that window. -/
def Obligations.OnlyConfigureAndResetWriteTheWindow : Prop :=
  ∀ s t : State, step s = .next t → t.cfg ≠ s.cfg →
    (s.resetRequested = true ∧ t.windowSize = 20) ∨
    (s.resetRequested = false ∧ ∃ w, s.activity = .accepted (.configure w) ∧ 1 ≤ w ∧ w ≤ 400 ∧ t.windowSize = w)

/-- R277, R344, D21: a command presented to a busy core waits (that it then stands first among the waiting ones is the model's
choice, log 7), and while a command is in flight and no reset is requested a step takes no other command and leaves CFG alone,
unless the command in flight is itself a CONFIGURE. -/
def Obligations.BusyCoreTakesNoOtherCommand : Prop :=
  ∀ s : State, s.activity ≠ .idle →
    (∀ c : Command, exec c.toInstr s = .next { s with waiting := c :: s.waiting }) ∧
    (∀ t : State, s.resetRequested = false → step s = .next t →
      t.waiting = s.waiting ∧ t.params = s.params ∧ t.resetRequested = false ∧
      ((∀ w, s.activity ≠ .accepted (.configure w)) → t.cfg = s.cfg))

/-- R270 to R274, R279, R348: every command the idle core takes ends, after finitely many steps, in exactly one response, the
function of its operands, the window and the capacities; CFG is then what the command makes it, and nothing else is left. -/
def Obligations.EveryCommandEndsInItsOneResponse : Prop :=
  ∀ (s : State) (c : Command) (rest : List Command),
    s.resetRequested = false → s.activity = .idle → s.waiting = c :: rest →
    ∃ k, Runs k s
      { s with
        cfg := windowAfter s.cfg c
        waiting := rest
        responses := s.responses ++ [responseTo s.params s.windowSize c] }

/-! ## The host commands -/

/-- R271 (D4): CONFIGURE writes a legal window and answers Ok; any other value is rejected with CONFIG_ERROR and changes
nothing else. -/
def Obligations.ConfigureWritesOnlyALegalWindow : Prop :=
  ∀ (s : State) (w : Nat), s.activity = .idle →
    (1 ≤ w → w ≤ 400 →
      exec (.configure w) s = .next { s with cfg := BitVec.ofNat 9 w, responses := s.responses ++ [.ok .done] } ∧
      (BitVec.ofNat 9 w).toNat = w) ∧
    (w = 0 ∨ 400 < w →
      exec (.configure w) s = .next { s with responses := s.responses ++ [.err (.configError w)] })

/-- R32, R35, R272, R275: FIND_MATCH checks its capacity, then its position, then holds its input, its position and CFG's
window, and the next step answers the finder's result under that window; it writes nothing (D12, D13). That the search and the
response are one step after the checks is the model's choice (log 1). -/
def Obligations.FindMatchAnswersTheFinder : Prop :=
  ∀ (s : State) (data : Bytes) (pos : Nat), s.activity = .idle →
    (∀ m, s.params.maxInputBytes = some m → m < data.length →
      exec (.findMatch data pos) s =
        .next { s with responses := s.responses ++ [.err (.capacity (.length data.length))] }) ∧
    ((∀ m, s.params.maxInputBytes = some m → data.length ≤ m) →
      (data.length ≤ pos →
        exec (.findMatch data pos) s = .next { s with responses := s.responses ++ [.err (.badArgument pos)] }) ∧
      (pos < data.length →
        ∃ t, exec (.findMatch data pos) s = .next t ∧
          t = { s with activity := .finding { input := data, w := s.cfg.toNat, pos := pos } } ∧
          (s.resetRequested = false →
            step t =
              .next { s with responses := s.responses ++ [.ok (.found (findLongestMatch data pos s.cfg.toNat))] })))

/-- R273, R180, R184, R348: COMPRESS refuses an input beyond its capacity at once; else it starts with the whole input, the
latched window, CUR = 0 and ENC empty, and after at most n encoder steps (R184, R348) and one step for pad, pack and response
together (log 1, DEDUCED: the + 1 of the bound is the model's) answers the compressed bytes, with nothing else changed (D12). -/
def Obligations.CompressRunsToItsResponse : Prop :=
  ∀ (s : State) (data : Bytes), s.activity = .idle →
    (∀ m, s.params.maxInputBytes = some m → m < data.length →
      exec (.compress data) s =
        .next { s with responses := s.responses ++ [.err (.capacity (.length data.length))] }) ∧
    ((∀ m, s.params.maxInputBytes = some m → data.length ≤ m) → s.resetRequested = false →
      ∃ t, exec (.compress data) s = .next t ∧
        t = { s with activity := .compressing { input := data, w := s.cfg.toNat, cur := 0, enc := [] } } ∧
        ∃ k, k ≤ data.length + 1 ∧
          Runs k t { s with responses := s.responses ++ [.ok (.bytes (compressBytes s.cfg.toNat data))] })

/-- R274, R210, R219, R222, R348: DECOMPRESS refuses a stream beyond its capacity at once; else it starts with the unpacked
stream, RP = 0, ReadFlag and OUT empty, and within R222's bound on token and copy steps and one step for the end of the stream
(log 1, DEDUCED: the + 1 of the bound, and one step for a whole token, are the model's) answers what DECOMPRESS_CORE gives, its
bytes or its error, with nothing else changed (D12). -/
def Obligations.DecompressRunsToItsResponse : Prop :=
  ∀ (s : State) (bytes : Bytes), s.activity = .idle →
    (∀ m, s.params.maxStreamBytes = some m → m < bytes.length →
      exec (.decompress bytes) s =
        .next { s with responses := s.responses ++ [.err (.capacity (.length bytes.length))] }) ∧
    ((∀ m, s.params.maxStreamBytes = some m → bytes.length ≤ m) → s.resetRequested = false →
      ∃ t, exec (.decompress bytes) s = .next t ∧
        t = { s with activity := .decompressing { stream := unpack bytes, rp := 0, fsm := .readFlag, out := [] } } ∧
        ∃ k, k ≤ 8 * bytes.length / 9 + 15 * (8 * bytes.length / 17) + 1 ∧
          Runs k t { s with responses := s.responses ++ [responseOf (decompressCore s.params (unpack bytes))] })

/-- Frame of the commands (R30, R31, R270 to R275): on an idle core every command answers a next state, in which nothing has
changed but the window, which is exactly what the command makes it (CONFIGURE's legal value, and else as it was), and either
the list of responses, which has the command's one response more, or the command-local state of FIND_MATCH, COMPRESS or
DECOMPRESS, which goes on. -/
def Obligations.CommandsLeaveTheRestAlone : Prop :=
  ∀ (s : State) (c : Command), s.activity = .idle → ∃ t, exec c.toInstr s = .next t ∧
    t.params = s.params ∧ t.waiting = s.waiting ∧ t.resetRequested = s.resetRequested ∧
    t.cfg = windowAfter s.cfg c ∧
    ((t.activity = .idle ∧ t.responses = s.responses ++ [responseTo s.params s.windowSize c]) ∨
     (t.responses = s.responses ∧ t.cfg = s.cfg ∧
      ((∃ data pos, c = .findMatch data pos ∧
          t.activity = .finding { input := data, w := s.cfg.toNat, pos := pos }) ∨
       (∃ data cmp, c = .compress data ∧ t.activity = .compressing cmp ∧ cmp.input = data) ∨
       (∃ bytes dec, c = .decompress bytes ∧ t.activity = .decompressing dec ∧ dec.stream = unpack bytes))))

/-! ## The match finder -/

/-- R142, R143, R145, R146: the result is the longest candidate and, among the longest, the nearest, whatever the scan order;
it is None exactly where there is no candidate. -/
def Obligations.FinderSelectsTheLongestThenTheNearest : Prop :=
  ∀ (data : Bytes) (pos w : Nat), pos < data.length →
    (∀ d len, findLongestMatch data pos w = some (d, len) →
      Candidate data pos w d len ∧
      (∀ d' len', Candidate data pos w d' len' → len' ≤ len) ∧
      (∀ d', Candidate data pos w d' len → d ≤ d')) ∧
    (findLongestMatch data pos w = none → ∀ d len, ¬ Candidate data pos w d len)

/-- R149: the loop's run count is the longest matching length: a length matches exactly up to it. -/
def Obligations.RunCountIsTheLongestTiledMatch : Prop :=
  ∀ (data : Bytes) (pos d len : Nat), 1 ≤ d → d ≤ pos → pos < data.length → len ≤ min 15 (data.length - pos) →
    (TiledMatch data pos d len ↔ len ≤ runLength data pos d)

/-- R151: the tiled comparison is the copy-forward comparison. -/
def Obligations.TiledMatchIsCopyForward : Prop :=
  ∀ (data : Bytes) (pos d len : Nat), 1 ≤ d → d ≤ pos →
    (TiledMatch data pos d len ↔ ∀ k, k < len → data[pos + k]? = data[pos + k - d]?)

/-- R72: the finder reads IN only in the window and the lookahead: two inputs of one length that agree there give one
result. -/
def Obligations.FinderReadsOnlyItsWindow : Prop :=
  ∀ (data data' : Bytes) (pos w : Nat), data.length = data'.length → pos < data.length →
    (∀ a, pos - min w pos ≤ a → a < pos + min 15 (data.length - pos) → data[a]? = data'[a]?) →
    findLongestMatch data pos w = findLongestMatch data' pos w

/-- R150, R152 (a), (b), (d), (e), (f): no match at position 0 or on the last byte; under a window of 1 only runs of one byte;
inside a run the match overlaps itself at distance 1 and its length is capped at 15. -/
def Obligations.FinderCornerCases : Prop :=
  ∀ (data : Bytes) (w : Nat),
    findLongestMatch data 0 w = none ∧
    (∀ pos, pos + 1 = data.length → findLongestMatch data pos w = none) ∧
    (∀ pos d len, findLongestMatch data pos 1 = some (d, len) →
      d = 1 ∧ ∀ k, k < len → data[pos + k]? = data[pos - 1]?) ∧
    (∀ (b : Byte) (n pos : Nat), 1 ≤ pos → pos + 2 ≤ n → 1 ≤ w →
      findLongestMatch (List.replicate n b) pos w = some (1, min 15 (n - pos)))

/-! ## The token encoder -/

/-- R181, R182, R183: while CUR < n a step of COMPRESS emits the finder's match as flag 1, d >> 4 and
((d & 0xF) << 4) | L, the high byte at most 25 under a legal window, and advances CUR by L, or else the byte at CUR as flag 0
and 8 bits and advances CUR by 1; it changes nothing else. -/
def Obligations.EncoderStepEmitsTheFinderResult : Prop :=
  ∀ (s : State) (c : Compressor), s.resetRequested = false → s.activity = .compressing c → c.cur < c.input.length →
    (∀ d len, findLongestMatch c.input c.cur c.w = some (d, len) →
      step s = .next { s with
        activity := .compressing
          { c with
            enc := c.enc ++ ([true] ++ bitsOf 8 (d / 16) ++ bitsOf 8 (d % 16 * 16 + len))
            cur := c.cur + len } } ∧
        1 ≤ d ∧ d ≤ c.w ∧ 2 ≤ len ∧ len ≤ 15 ∧ (c.w ≤ 400 → d / 16 ≤ 25)) ∧
    (∀ b, findLongestMatch c.input c.cur c.w = none → c.input[c.cur]? = some b →
      step s = .next { s with
        activity := .compressing { c with enc := c.enc ++ ([false] ++ bitsOf 8 b.toNat), cur := c.cur + 1 } })

/-- R32, R71, R184, R190, R344: a step of COMPRESS keeps IN and W, only appends to ENC, advances CUR and never past n, and
raises no error. -/
def Obligations.EncoderStepKeepsInputAndWindow : Prop :=
  ∀ (s t : State) (c : Compressor), s.resetRequested = false → s.activity = .compressing c → step s = .next t →
    t.cfg = s.cfg ∧ t.waiting = s.waiting ∧
    ((t.responses = s.responses ∧ ∃ c', t.activity = .compressing c' ∧ c'.input = c.input ∧ c'.w = c.w ∧
        c.enc <+: c'.enc ∧ c.cur < c'.cur ∧ c'.cur ≤ c.input.length) ∨
     (t.activity = .idle ∧ c.input.length ≤ c.cur ∧ ∃ bs, t.responses = s.responses ++ [.ok (.bytes bs)]))

/-- R106, R185: the pad is `(8 − (len mod 8)) mod 8` zero bits, fewer than 8 and enough to reach a whole number of bytes; it is
appended once, after the loop, and nothing follows it in what is packed. -/
def Obligations.PadReachesAByteBoundaryWithZeros : Prop :=
  (∀ enc : Bits,
    padStep enc = enc ++ List.replicate ((8 - enc.length % 8) % 8) false ∧ (padStep enc).length % 8 = 0 ∧
      (8 - enc.length % 8) % 8 < 8) ∧
  (∀ (w : Nat) (data : Bytes),
    compressBytes w data =
      pack (encodedBits w data ++ List.replicate ((8 - (encodedBits w data).length % 8) % 8) false))

/-- R73: stream bit k is bit 7 − (k mod 8) of byte k div 8; packing and unpacking are inverse (D16). -/
def Obligations.PackAndUnpackAreInverse : Prop :=
  (∀ bytes : Bytes, (unpack bytes).length = 8 * bytes.length ∧ pack (unpack bytes) = bytes) ∧
  (∀ s : Bits, s.length % 8 = 0 → unpack (pack s) = s ∧ (pack s).length = s.length / 8) ∧
  (∀ (bytes : Bytes) (k : Nat), k < 8 * bytes.length →
    (unpack bytes)[k]? = (bytes[k / 8]?).map fun b => b.toNat.testBit (7 - k % 8))

/-- R100: the encoded stream is the concatenation of the encodings of tokens, those of the greedy parse, each of 9 or 17 bits,
and then of 0 to 7 zero bits that make its length a multiple of 8; nothing else stands in it. -/
def Obligations.EncodedStreamIsTheGreedyParse : Prop :=
  ∀ (w : Nat) (data : Bytes),
    (∀ i ∈ parse w data,
      ∃ bits, encode i = some bits ∧
        ((∃ b, i = .lit b ∧ bits.length = 9) ∨ (∃ d len, i = .matchTok d len ∧ bits.length = 17))) ∧
    ∃ bits k, encodeTokens (parse w data) = some bits ∧ encodedBits w data = bits ∧ k ≤ 7 ∧
      padStep (encodedBits w data) = bits ++ List.replicate k false ∧ (padStep (encodedBits w data)).length % 8 = 0

/-- R187: with a literals and b matches ENC has 9a + 17b bits, the tokens stand for the n input bytes, and the output has
⌈(9a + 17b) / 8⌉ bytes, at most ⌈9n / 8⌉. -/
def Obligations.CompressedLengthCountsItsTokens : Prop :=
  ∀ (w : Nat) (data : Bytes),
    (encodedBits w data).length =
      9 * (parse w data).countP isLit + 17 * (parse w data).countP (fun i => !isLit i) ∧
    spanSum (parse w data) = data.length ∧
    (compressBytes w data).length = ((encodedBits w data).length + 7) / 8 ∧
    (compressBytes w data).length ≤ (9 * data.length + 7) / 8

/-- R81: with capacities that fit together, every output of COMPRESS is within MAX_STREAM_BYTES, so DECOMPRESS takes it back
(D12). -/
def Obligations.FittingCapacitiesTakeEveryOutputBack : Prop :=
  ∀ (p : Params) (w : Nat) (data : Bytes), consistentCapacities p = true →
    (∀ m, p.maxInputBytes = some m → data.length ≤ m) →
    ∀ m, p.maxStreamBytes = some m → (compressBytes w data).length ≤ m

/-- R108, R191: every token the encoder emits is canonical for the window and the bytes left, and a match reaches back no
further than the bytes encoded before it. -/
def Obligations.EmittedTokensAreCanonical : Prop :=
  ∀ (w : Nat) (data : Bytes) (before after : List Instr) (i : Instr), parse w data = before ++ i :: after →
    i.canonical w (data.length - spanSum before) = true ∧
    (∀ d len, i = .matchTok d len → d ≤ spanSum before)

/-- R188, R189: an empty input gives no bytes; an input in which no two bytes in a row come again is one literal a byte. -/
def Obligations.NoRepetitionGivesOneLiteralAByte : Prop :=
  ∀ (w : Nat) (data : Bytes),
    (∀ p q, p < q → q + 1 < data.length → ¬ (data[p]? = data[q]? ∧ data[p + 1]? = data[q + 1]?)) →
    parse w data = data.map .lit ∧ (encodedBits w data).length = 9 * data.length

/-! ## The encoding -/

/-- R102: a LIT is the flag 0 and its byte, most significant bit first, to the encoder and to the decoder. -/
def Obligations.LitIsAZeroFlagAndItsByte : Prop :=
  ∀ (b : Byte) (rest : Bits),
    encode (.lit b) = some [false, b.getLsbD 7, b.getLsbD 6, b.getLsbD 5, b.getLsbD 4, b.getLsbD 3, b.getLsbD 2,
      b.getLsbD 1, b.getLsbD 0] ∧
    decodeToken ([false, b.getLsbD 7, b.getLsbD 6, b.getLsbD 5, b.getLsbD 4, b.getLsbD 3, b.getLsbD 2, b.getLsbD 1,
      b.getLsbD 0] ++ rest) = .token (.lit b) rest

/-- R104: from payload bytes b1 and b2 the decoder assembles the distance b1 · 16 + b2 div 16, at most 4095, and the length
b2 mod 16, without scaling or offset. -/
def Obligations.MatchFieldsAreAssembledFromTwoBytes : Prop :=
  ∀ (b1 b2 : Nat) (rest : Bits), b1 < 256 → b2 < 256 →
    decodeToken (true :: (bitsOf 8 b1 ++ bitsOf 8 b2) ++ rest) = .token (.matchTok (b1 * 16 + b2 / 16) (b2 % 16)) rest ∧
    b1 * 16 + b2 / 16 ≤ 4095 ∧ b2 % 16 ≤ 15

/-- R102, R103: in the opcode table's numbering, a 9-bit word below 256 is LIT of that byte, and a 17-bit word with bit 16 set
is MATCH with the distance in bits 15..4 and the length in bits 3..0 (log 11 for the numbering). -/
def Obligations.TableWordsHoldTheFields : Prop :=
  (∀ w, w < 256 → decodeTableWord 16 w = some (.lit (BitVec.ofNat 8 w))) ∧
  (∀ d len, d < 4096 → len < 16 → decodeTableWord 24 (65536 + d * 16 + len) = some (.matchTok d len))

/-- R101 to R105, for every token with every operand its fields admit: decoding its encoding, whatever follows, gives it back
and leaves what followed. -/
def Obligations.DecodeOfEncodeIsTheToken : Prop :=
  ∀ (i : Instr) (rest : Bits), i.isToken = true → i.wellFormed = true →
    ∃ bits, encode i = some bits ∧ decodeToken (bits ++ rest) = .token i rest

/-- R101: each token starts with one flag bit, 0 for LIT and 1 for MATCH, which alone sets its length, 9 or 17 bits. And no
pattern is dropped or shared: a decoded token is a well-formed token, and its encoding is the very bits it was read from. -/
def Obligations.EncodeOfDecodeIsTheBits : Prop :=
  ∀ (s rest : Bits) (i : Instr), decodeToken s = .token i rest →
    i.isToken = true ∧ i.wellFormed = true ∧ (∃ bits, encode i = some bits ∧ s = bits ++ rest) ∧
    (s.head? = some false → (∃ b, i = .lit b) ∧ s.length = rest.length + 9) ∧
    (s.head? = some true → (∃ d len, i = .matchTok d len) ∧ s.length = rest.length + 17)

/-- R107, R109 (h), (i), R110, R211, R215: the decoder refuses exactly fewer than 9 bits, and a flag 1 with 8 to 15 bits after
it; every other bit sequence begins with a token (D9, D10). -/
def Obligations.DecoderRefusesOnlyShortStreams : Prop :=
  ∀ s : Bits,
    (∀ n, decodeToken s = .reject (.endOfStream n) ↔ s.length < 9 ∧ n = s.length) ∧
    (∀ n, decodeToken s = .reject (.truncatedMatch n) ↔ ∃ rest, s = true :: rest ∧ 8 ≤ n ∧ n < 16 ∧ n = rest.length)

/-- Words written out from the spec's patterns `0BBBBBBBB` and `1DDDDDDDDDDDDLLLL` (the vectors V-T01 to V-T07). -/
def Obligations.WrittenWordsDecode : Prop :=
  decodeTableWord 16 0b000000000 = some (.lit 0x00#8) ∧
  decodeTableWord 16 0b011111111 = some (.lit 0xFF#8) ∧
  decodeTableWord 24 0b10000000000010010 = some (.matchTok 1 2) ∧
  decodeTableWord 24 0b10000000000110110 = some (.matchTok 3 6) ∧
  decodeTableWord 24 0b10001100100001111 = some (.matchTok 400 15) ∧
  decodeTableWord 24 0b11111111111111111 = some (.matchTok 4095 15) ∧
  decodeTableWord 24 0b10000000000000000 = some (.matchTok 0 0)

/-- R111, R112: the assembler accepts exactly the well-formed listings, and any well-formed listing, of LIT and MATCH lines in
any mix, with a last PAD or without, assembles to the encodings of its lines' tokens in order (LIT of the byte b, MATCH of d
and L) and then the PAD's zero bits, none without a PAD (D22). -/
def Obligations.AssemblerAcceptsWellFormedListings : Prop :=
  (∀ lines : List Line, (assemble lines).isSome = Line.listingWellFormed lines) ∧
  (∀ lines : List Line, Line.listingWellFormed lines = true →
    ∃ tokens bits k, encodeTokens tokens = some bits ∧ assemble lines = some (bits ++ List.replicate k false) ∧ k ≤ 7 ∧
      (∀ i ∈ tokens, i.wellFormed = true) ∧
      ((lines.map Line.token = tokens.map some ∧ k = 0) ∨
       (lines.map Line.token = tokens.map some ++ [none] ∧ lines.getLast? = some (.pad k)))) ∧
  (∀ b, b < 256 → ∃ byte : Byte, byte.toNat = b ∧ Line.token (.lit b) = some (.lit byte)) ∧
  (∀ d len, Line.token (.matchLine d len) = some (.matchTok d len))

/-! ## The token decoder and the replay engine -/

/-- R212, R39: popping the flag advances RP by 1 and goes to ReadLiteral for 0 and to ReadMatch for 1; the flag is kept
nowhere else. -/
def Obligations.FlagChoosesTheNextState : Prop :=
  ∀ dec : Decoder,
    dec.popFlag false = { dec with rp := dec.rp + 1, fsm := .readLiteral } ∧
    dec.popFlag true = { dec with rp := dec.rp + 1, fsm := .readMatch }

/-- R211, R215 (D9, D10): at ReadFlag with fewer than 9 bits left the command ends with the whole of OUT, whatever those bits
are; a flag 1 with 8 to 15 bits after it ends it with DECODE_TRUNCATED and the flag's offset, in the step that reads the flag
(log 1). -/
def Obligations.ShortRemainderEndsOrTruncatesTheStream : Prop :=
  ∀ (s : State) (dec : Decoder), s.resetRequested = false → s.activity = .decompressing dec → dec.fsm = .readFlag →
    (dec.stream.length - dec.rp < 9 →
      step s = .next { s with activity := .idle, responses := s.responses ++ [.ok (.bytes dec.out)] }) ∧
    (dec.stream[dec.rp]? = some true → dec.rp + 9 ≤ dec.stream.length → dec.stream.length < dec.rp + 17 →
      step s = .next { s with activity := .idle, responses := s.responses ++ [.err (.decodeTruncated dec.rp)] })

/-- R213, R241: LIT at ReadLiteral pops 8 bits, appends its byte and returns to ReadFlag; nothing else changes. -/
def Obligations.LitAppendsItsByte : Prop :=
  ∀ (s : State) (dec : Decoder) (b : Byte), s.activity = .decompressing dec → dec.fsm = .readLiteral →
    dec.rp + 8 ≤ dec.stream.length →
    ((∀ m, s.params.maxOutputBytes = some m → dec.out.length + 1 ≤ m) →
      exec (.lit b) s = .next { s with
        activity := .decompressing { dec with rp := dec.rp + 8, fsm := .readFlag, out := dec.out ++ [b] } }) ∧
    (∀ m, s.params.maxOutputBytes = some m → m < dec.out.length + 1 →
      exec (.lit b) s = .next { s with
        activity := .idle
        responses := s.responses ++ [.err (.capacity (.flagOffset (dec.rp - 1)))] })

/-- R212, R213, R248: a whole LIT from its flag at RP, in one step (log 1): RP advances by 9 and the byte is appended, or
CAPACITY is raised with the flag's offset (D12). -/
def Obligations.LitFromItsFlag : Prop :=
  ∀ (s : State) (dec : Decoder) (b : Byte), s.activity = .decompressing dec → dec.fsm = .readFlag →
    dec.rp + 9 ≤ dec.stream.length →
    ((∀ m, s.params.maxOutputBytes = some m → dec.out.length + 1 ≤ m) →
      exec (.lit b) s = .next { s with
        activity := .decompressing { dec with rp := dec.rp + 9, out := dec.out ++ [b] } }) ∧
    (∀ m, s.params.maxOutputBytes = some m → m < dec.out.length + 1 →
      exec (.lit b) s = .next { s with
        activity := .idle
        responses := s.responses ++ [.err (.capacity (.flagOffset dec.rp))] })

/-- R214, R215, R216, R309 (D7, D8, D10): MATCH with its payload at p, from ReadMatch or from its flag with the 9 bits or more
that R211 asks for: DECODE_TRUNCATED if 16 bits are not left, else DECODE_DISTANCE for a distance of 0 or beyond OUT whatever the
length, else ReadFlag for a length of 0 and Copy with the distance and the length otherwise. That the token runs from its flag in
one go is log 1. -/
def Obligations.MatchChecksThenStartsItsCopy : Prop :=
  ∀ (s : State) (dec : Decoder) (d len p : Nat), s.activity = .decompressing dec →
    (dec.fsm = .readMatch ∧ p = dec.rp ∨ dec.fsm = .readFlag ∧ p = dec.rp + 1 ∧ dec.rp + 9 ≤ dec.stream.length) →
    (dec.stream.length - p < 16 →
      exec (.matchTok d len) s = .next { s with
        activity := .idle
        responses := s.responses ++ [.err (.decodeTruncated (p - 1))] }) ∧
    (16 ≤ dec.stream.length - p → d = 0 ∨ dec.out.length < d →
      exec (.matchTok d len) s = .next { s with
        activity := .idle
        responses := s.responses ++ [.err (.decodeDistance (p - 1) d len)] }) ∧
    (16 ≤ dec.stream.length - p → 1 ≤ d → d ≤ dec.out.length →
      exec (.matchTok d len) s = .next { s with
        activity := .decompressing
          { dec with rp := p + 16, fsm := if len = 0 then .readFlag else .copy d len } })

/-- R242, R243, R245: a MATCH within OUT, from its flag or its payload, and then one step a byte, appends the tiling of the
last d bytes of OUT as it was, also where it overlaps itself, and returns to ReadFlag; nothing else changes. -/
def Obligations.MatchRunsItsWholeCopy : Prop :=
  ∀ (s : State) (dec : Decoder) (d len p : Nat), s.resetRequested = false → s.activity = .decompressing dec →
    (dec.fsm = .readMatch ∧ p = dec.rp ∨ dec.fsm = .readFlag ∧ p = dec.rp + 1) →
    16 ≤ dec.stream.length - p → 1 ≤ d → d ≤ dec.out.length →
    (∀ m, s.params.maxOutputBytes = some m → dec.out.length + len ≤ m) →
    ∃ t, exec (.matchTok d len) s = .next t ∧
      Runs len t { s with
        activity := .decompressing
          { dec with
            rp := p + 16
            fsm := .readFlag
            out := dec.out ++
              (List.range len).map fun k => dec.out.getD (dec.out.length - d + k % d) 0#8 } }

/-- R243, R248: one copy step appends the byte COPY_D back from the current end of OUT, counts COPY_REM down and returns to
ReadFlag at 0; at a full OUT it raises CAPACITY with the flag's offset, RP − 17, and appends nothing (D12). -/
def Obligations.CopyStepAppendsOneByteFromBehind : Prop :=
  ∀ (s : State) (dec : Decoder) (d rem : Nat) (b : Byte), s.resetRequested = false →
    s.activity = .decompressing dec → dec.fsm = .copy d (rem + 1) → 1 ≤ d → d ≤ dec.out.length →
    dec.out[dec.out.length - d]? = some b →
    ((∀ m, s.params.maxOutputBytes = some m → dec.out.length + 1 ≤ m) →
      step s = .next { s with
        activity := .decompressing
          { dec with out := dec.out ++ [b], fsm := if rem = 0 then .readFlag else .copy d rem } }) ∧
    (∀ m, s.params.maxOutputBytes = some m → m < dec.out.length + 1 →
      step s = .next { s with
        activity := .idle
        responses := s.responses ++ [.err (.capacity (.flagOffset (dec.rp - 17)))] })

/-- Frame of the tokens (R85, R213, R214, R240): a LIT or MATCH that is executed leaves the window, the parameters, the host's
side, S and every byte OUT already holds unchanged; a LIT appends its byte and a MATCH nothing before its copy steps; or the
token ends the command with an error. -/
def Obligations.TokensOnlyAppendToTheHistory : Prop :=
  ∀ (s t : State) (i : Instr), i.isToken = true → exec i s = .next t →
    t.params = s.params ∧ t.cfg = s.cfg ∧ t.waiting = s.waiting ∧ t.resetRequested = s.resetRequested ∧
    ∃ dec, s.activity = .decompressing dec ∧
      ((t.responses = s.responses ∧ ∃ dec', t.activity = .decompressing dec' ∧ dec'.stream = dec.stream ∧
          (∀ b, i = .lit b → dec'.out = dec.out ++ [b]) ∧
          (∀ d len, i = .matchTok d len → dec'.out = dec.out) ∧
          (∀ a, a < dec.out.length → dec'.out[a]? = dec.out[a]?)) ∨
       (t.activity = .idle ∧ ∃ e, t.responses = s.responses ++ [.err e]))

/-- R85, R240, R38: whatever step DECOMPRESS makes, S is never written, RP never goes back, and no element of OUT is
overwritten or removed while the command runs. -/
def Obligations.HistoryIsAppendOnly : Prop :=
  ∀ (s t : State) (dec dec' : Decoder), step s = .next t → s.activity = .decompressing dec →
    t.activity = .decompressing dec' →
    dec'.stream = dec.stream ∧ dec.rp ≤ dec'.rp ∧ dec.out <+: dec'.out

/-- R217: DECOMPRESS does not read CFG.WINDOW_SIZE: with any other window its steps are the same; and any distance up to 4095
that is within OUT is executed: it starts the copy in the state Copy, or none for length 0 (R214; the state's name is D23's, the
length 0 is D8's, and that the token runs from its flag in one go is log 1). -/
def Obligations.DecoderIgnoresTheWindow : Prop :=
  ∀ (s : State) (dec : Decoder), s.resetRequested = false → s.activity = .decompressing dec →
    (∀ (t : State) (c : BitVec 9), step s = .next t → step { s with cfg := c } = .next { t with cfg := c }) ∧
    (∀ d len p, (dec.fsm = .readMatch ∧ p = dec.rp ∨ dec.fsm = .readFlag ∧ p = dec.rp + 1) →
      16 ≤ dec.stream.length - p → 1 ≤ d → d ≤ 4095 → d ≤ dec.out.length →
      exec (.matchTok d len) s = .next { s with
        activity := .decompressing
          { dec with rp := p + 16, fsm := if len = 0 then .readFlag else .copy d len } })

/-- The model's stop (log 8): a LIT or MATCH where no DECOMPRESS stands at a token of that kind has no meaning and is refused
by name; at ReadFlag that is where fewer than 9 bits are left, since there the stream ends (R211). -/
def Obligations.TokenOutsideItsStateIsRefused : Prop :=
  ∀ (s : State) (b : Byte) (d len : Nat),
    ((∀ dec, s.activity ≠ .decompressing dec) →
      exec (.lit b) s = .refused .tokenOutsideStream ∧ exec (.matchTok d len) s = .refused .tokenOutsideStream) ∧
    (∀ dec, s.activity = .decompressing dec →
      (dec.fsm = .readMatch ∨ (∃ cd rem, dec.fsm = .copy cd rem) → exec (.lit b) s = .refused .tokenOutsideStream) ∧
      (dec.fsm = .readLiteral ∨ (∃ cd rem, dec.fsm = .copy cd rem) →
        exec (.matchTok d len) s = .refused .tokenOutsideStream) ∧
      (dec.fsm = .readFlag → dec.stream.length < dec.rp + 9 →
        exec (.lit b) s = .refused .tokenOutsideStream ∧ exec (.matchTok d len) s = .refused .tokenOutsideStream))

/-- R242, R244, R245, R248: MATCH_COPY appends the tiling of the last d bytes; where d ≥ L that is the plain slice a bulk copy
would take, and where d < L it is not; beyond MAX_OUTPUT_BYTES it is CAPACITY with the flag's offset (D12). -/
def Obligations.MatchCopyTilesTheHistory : Prop :=
  ∀ (p : Params) (flagOffset d len : Nat) (out : Bytes), 1 ≤ d → d ≤ out.length →
    ((∀ m, p.maxOutputBytes = some m → out.length + len ≤ m) →
      matchCopy p flagOffset d len out =
        .ok (out ++ (List.range len).map fun k => out.getD (out.length - d + k % d) 0#8) ∧
      (len ≤ d → matchCopy p flagOffset d len out = .ok (out ++ (out.drop (out.length - d)).take len)) ∧
      (d < len → matchCopy p flagOffset d len out ≠ .ok (out ++ (out.drop (out.length - d)).take len))) ∧
    (∀ m, p.maxOutputBytes = some m → out.length ≤ m → m < out.length + len →
      matchCopy p flagOffset d len out = .error (.capacity (.flagOffset flagOffset)))

/-- R211, R218 to R220 (D9): DECOMPRESS_CORE of tokens in a row and fewer than 9 further bits of any values is the replay of
exactly those tokens in order, its bytes or its first error. -/
def Obligations.DecoderReplaysTheTokensAndDropsTheTail : Prop :=
  ∀ (p : Params) (tokens : List Instr) (bits tail : Bits), (∀ i ∈ tokens, i.wellFormed = true) →
    encodeTokens tokens = some bits → tail.length < 9 →
    decompressCore p (bits ++ tail) = replay p 0 tokens []

/-- R278: for every legal window and every input within the output capacity, decompressing the compressed bytes gives the
input back. -/
def Obligations.DecompressOfCompressIsTheInput : Prop :=
  ∀ (p : Params) (w : Nat) (data : Bytes), 1 ≤ w → w ≤ 400 →
    (∀ m, p.maxOutputBytes = some m → data.length ≤ m) →
    decompressCore p (unpack (compressBytes w data)) = .ok data

/-- R278, stated over commands: an idle core with a legal window, given COMPRESS(B) and then DECOMPRESS of what COMPRESS
answers, answers those bytes and then B, if the three capacities hold B and its worst case. -/
def Obligations.CommandsRoundTrip : Prop :=
  ∀ (s : State) (data : Bytes) (rest : List Command), s.resetRequested = false → s.activity = .idle →
    1 ≤ s.windowSize → s.windowSize ≤ 400 →
    (∀ m, s.params.maxInputBytes = some m → data.length ≤ m) →
    (∀ m, s.params.maxStreamBytes = some m → (9 * data.length + 7) / 8 ≤ m) →
    (∀ m, s.params.maxOutputBytes = some m → data.length ≤ m) →
    s.waiting = .compress data :: .decompress (compressBytes s.windowSize data) :: rest →
    ∃ k, Runs k s
      { s with
        waiting := rest
        responses := s.responses ++ [.ok (.bytes (compressBytes s.windowSize data)), .ok (.bytes data)] }

/-! ## The host adapter -/

/-- R276, R301, R309: a compress call with an illegal window ends with CONFIG_ERROR before any file is read or written,
whatever the files; CFG stays. -/
def Obligations.AdapterRejectsTheWindowBeforeAnyFile : Prop :=
  ∀ (sys : System) (input output : Path) (w : Nat) (rest : List Call),
    sys.adapter.phase = .ready → sys.core.free = true → sys.adapter.calls = .compress input output (some w) :: rest →
    w = 0 ∨ 400 < w →
    ∃ k, System.run k sys = .next
      { adapter := { sys.adapter with calls := rest, results := sys.adapter.results ++ [.failed (.configError w)] }
        core := { sys.core with responses := sys.core.responses ++ [.err (.configError w)] } }

/-- R276: a compress call with a legal window configures it, reads the input whole, compresses, writes the output whole and
succeeds. -/
def Obligations.AdapterCompressesAFile : Prop :=
  ∀ (sys : System) (input output : Path) (w : Nat) (data : Bytes) (files : Files) (rest : List Call),
    sys.adapter.phase = .ready → sys.core.free = true → sys.adapter.calls = .compress input output (some w) :: rest →
    1 ≤ w → w ≤ 400 → sys.adapter.files.read input = some data →
    (∀ m, sys.core.params.maxInputBytes = some m → data.length ≤ m) →
    sys.adapter.files.write output (compressBytes w data) = some files →
    ∃ k, System.run k sys = .next
      { adapter := { sys.adapter with calls := rest, files := files, results := sys.adapter.results ++ [.success] }
        core := { sys.core with
          cfg := BitVec.ofNat 9 w
          responses := sys.core.responses ++ [.ok .done, .ok (.bytes (compressBytes w data))] } }

/-- R276, R302: a decompress call reads the file first: if it cannot, IO_ERROR with the path and the direction and no command
is issued; if DECOMPRESS answers an error, the call passes it on unchanged and writes no file. -/
def Obligations.AdapterReportsReadFailureAndDecodeErrors : Prop :=
  ∀ (sys : System) (input output : Path) (rest : List Call),
    sys.adapter.phase = .ready → sys.core.free = true → sys.adapter.calls = .decompress input output :: rest →
    (sys.adapter.files.read input = none →
      ∃ k, System.run k sys = .next
        { adapter := { sys.adapter with
            calls := rest, results := sys.adapter.results ++ [.failed (.ioError input .read)] }
          core := sys.core }) ∧
    (∀ data e, sys.adapter.files.read input = some data →
      (∀ m, sys.core.params.maxStreamBytes = some m → data.length ≤ m) →
      decompressCore sys.core.params (unpack data) = .error e →
      ∃ k, System.run k sys = .next
        { adapter := { sys.adapter with calls := rest, results := sys.adapter.results ++ [.failed e] }
          core := { sys.core with responses := sys.core.responses ++ [.err e] } })
end

