-- ==== Sys2Proof/Laws/Bits.lean ====
section
/-! SUPPORT. Bits, bytes and the fields of a token: `bitsOf` and `val` are inverse, and lengths. -/

namespace Sys2Proof

@[simp] theorem bitsOf_length (w v : Nat) : (bitsOf w v).length = w := by
  induction w with
  | zero => rfl
  | succ w ih => simp [bitsOf, ih]

theorem bitsOf_zero (w : Nat) : bitsOf w 0 = List.replicate w false := by
  induction w with
  | zero => rfl
  | succ w ih => simp [bitsOf, ih, List.replicate_succ]

/-- `val` is a fold, so a known prefix moves into the start value. -/
theorem val_foldl (s : Bits) (a : Nat) :
    s.foldl (fun acc bit => 2 * acc + bit.toNat) a = a * 2 ^ s.length + val s := by
  induction s generalizing a with
  | nil => simp [val]
  | cons b s ih =>
    simp only [val, List.foldl_cons, List.length_cons] at ih ⊢
    rw [ih, ih (2 * 0 + b.toNat)]
    ring

@[simp] theorem val_nil : val [] = 0 := rfl

theorem val_cons (b : Bool) (s : Bits) : val (b :: s) = b.toNat * 2 ^ s.length + val s := by
  have h := val_foldl s (2 * 0 + b.toNat)
  simpa [val] using h

theorem val_append (s t : Bits) : val (s ++ t) = val s * 2 ^ t.length + val t := by
  rw [← val_foldl, val, List.foldl_append]
  rfl

theorem val_lt (s : Bits) : val s < 2 ^ s.length := by
  induction s with
  | nil => simp
  | cons b s ih =>
    rw [val_cons, List.length_cons, pow_succ]
    cases b <;> simp <;> omega

theorem val_bitsOf_mod (w v : Nat) : val (bitsOf w v) = v % 2 ^ w := by
  induction w with
  | zero => simp [bitsOf, Nat.mod_one]
  | succ w ih =>
    rw [bitsOf, val_cons, ih, bitsOf_length, Nat.mod_pow_succ, Nat.toNat_testBit]
    ring

/-- `val` undoes `bits_w` on every value that fits (R10). -/
theorem val_bitsOf {w v : Nat} (h : v < 2 ^ w) : val (bitsOf w v) = v := by
  rw [val_bitsOf_mod, Nat.mod_eq_of_lt h]

/-- `bits_w` undoes `val` on every sequence of length w (R10). -/
theorem bitsOf_val (s : Bits) : bitsOf s.length (val s) = s := by
  suffices h : ∀ (s : Bits) (a : Nat), bitsOf s.length (a * 2 ^ s.length + val s) = s by
    simpa using h s 0
  intro s
  induction s with
  | nil => intro a; rfl
  | cons b s ih =>
    intro a
    have hv := val_lt s
    have e : a * 2 ^ (s.length + 1) + val (b :: s) = (a * 2 + b.toNat) * 2 ^ s.length + val s := by
      rw [val_cons, pow_succ]; ring
    rw [List.length_cons, bitsOf, e, ih]
    congr 1
    have hdiv : ((a * 2 + b.toNat) * 2 ^ s.length + val s) / 2 ^ s.length = a * 2 + b.toNat := by
      rw [mul_comm, Nat.mul_add_div (Nat.two_pow_pos _), Nat.div_eq_of_lt hv, add_zero]
    rw [Nat.testBit_eq_decide_div_mod_eq, hdiv]
    cases b <;> simp [Nat.add_mod]

theorem bitsOf_val_of_length {s : Bits} {w : Nat} (h : s.length = w) : bitsOf w (val s) = s := by
  subst h; exact bitsOf_val s

/-- A field that stands at the front of a sequence reads back whole. -/
theorem bitRead_append_left (s t : Bits) : bitRead (s ++ t) 0 s.length = val s := by
  simp [bitRead]

theorem bitRead_append_right (s t : Bits) (k w : Nat) : bitRead (s ++ t) (s.length + k) w = bitRead t k w := by
  simp [bitRead, List.drop_append, List.drop_eq_nil_of_le]

theorem bitRead_drop (s : Bits) (k j w : Nat) : bitRead (s.drop k) j w = bitRead s (k + j) w := by
  simp [bitRead, List.drop_drop]

/-- A read that ends inside the sequence does not see what follows it. -/
theorem bitRead_append_of_le {s : Bits} {k w : Nat} (h : k + w ≤ s.length) (t : Bits) :
    bitRead (s ++ t) k w = bitRead s k w := by
  unfold bitRead
  rw [List.drop_append_of_le_length (by omega), List.take_append_of_le_length (by simp; omega)]

theorem bitRead_lt (s : Bits) (k w : Nat) : bitRead s k w < 2 ^ w := by
  have h := val_lt ((s.drop k).take w)
  have : ((s.drop k).take w).length ≤ w := by simp
  exact lt_of_lt_of_le h (Nat.pow_le_pow_right (by norm_num) this)

theorem bitRead_bitsOf_append {w v : Nat} (h : v < 2 ^ w) (t : Bits) : bitRead (bitsOf w v ++ t) 0 w = v := by
  have := bitRead_append_left (bitsOf w v) t
  rw [bitsOf_length] at this
  rw [this, val_bitsOf h]

@[simp] theorem unpack_nil : unpack [] = [] := rfl

theorem unpack_cons (b : Byte) (bytes : Bytes) : unpack (b :: bytes) = bitsOf 8 b.toNat ++ unpack bytes := rfl

theorem unpack_length_eq (bytes : Bytes) : (unpack bytes).length = 8 * bytes.length := by
  induction bytes with
  | nil => rfl
  | cons b bytes ih => rw [unpack_cons, List.length_append, ih, bitsOf_length, List.length_cons]; ring

/-- A whole byte in front packs to that byte. -/
theorem pack_byte_append (s t : Bits) (h : s.length = 8) : pack (s ++ t) = BitVec.ofNat 8 (val s) :: pack t := by
  match s, h with
  | [b0, b1, b2, b3, b4, b5, b6, b7], _ => rfl

theorem padCount_lt (len : Nat) : padCount len < 8 := by
  unfold padCount; omega

theorem padCount_add_mod (len : Nat) : (len + padCount len) % 8 = 0 := by
  unfold padCount; omega

/-- The high byte of a distance that fits its field (R103). -/
theorem highByte_eq (d : Nat) : highByte d = d / 16 := by
  simp [highByte, Nat.shiftRight_eq_div_pow]

/-- The low byte of a match that fits its fields (R103). -/
theorem lowByte_eq {len : Nat} (d : Nat) (h : len < 16) : lowByte d len = d % 16 * 16 + len := by
  have h1 : d &&& 0xF = d % 16 := Nat.and_two_pow_sub_one_eq_mod d 4
  unfold lowByte
  rw [h1, ← Nat.shiftLeft_add_eq_or_of_lt (show len < 2 ^ 4 by simpa using h), Nat.shiftLeft_eq]

/-- The assembled distance of two payload bytes (R104). -/
theorem distanceOf_eq {b2 : Nat} (b1 : Nat) (h : b2 < 256) : distanceOf b1 b2 = b1 * 16 + b2 / 16 := by
  unfold distanceOf
  have h2 : b2 >>> 4 = b2 / 16 := by simp [Nat.shiftRight_eq_div_pow]
  rw [h2, ← Nat.shiftLeft_add_eq_or_of_lt (show b2 / 16 < 2 ^ 4 by norm_num; omega), Nat.shiftLeft_eq]

/-- The assembled length of a payload byte (R104). -/
theorem lengthOf_eq (b2 : Nat) : lengthOf b2 = b2 % 16 :=
  Nat.and_two_pow_sub_one_eq_mod b2 4

end Sys2Proof
end

