-- ==== Sys2Proof/Laws/Decode.lean ====
section
/-! SUPPORT. The decoder on a token's bits, form by form. -/

namespace Sys2Proof

/-- The bits of a MATCH, by its two payload bytes (R103). -/
theorem encode_matchTok (d len : Nat) :
    encode (.matchTok d len) = some (true :: (bitsOf 8 (highByte d) ++ bitsOf 8 (lowByte d len))) := rfl

theorem encode_lit (b : Byte) : encode (.lit b) = some (false :: bitsOf 8 b.toNat) := rfl

/-- A flag 0 with at least 8 bits after it is a LIT (R213). -/
theorem decodeToken_false (rest : Bits) (h : 8 ≤ rest.length) :
    decodeToken (false :: rest) = .token (.lit (BitVec.ofNat 8 (bitRead rest 0 8))) (rest.drop 8) := by
  unfold decodeToken
  rw [if_neg (by simp; omega)]

/-- A flag 1 with at least 16 bits after it is a MATCH (R214). -/
theorem decodeToken_true (rest : Bits) (h : 16 ≤ rest.length) :
    decodeToken (true :: rest) =
      .token (.matchTok (distanceOf (bitRead rest 0 8) (bitRead rest 8 8)) (lengthOf (bitRead rest 8 8)))
        (rest.drop 16) := by
  unfold decodeToken
  rw [if_neg (by simp; omega)]
  simp only [Config.matchPayloadBits]
  rw [if_neg (by omega)]

theorem decodeToken_short {s : Bits} (h : s.length < 9) : decodeToken s = .reject (.endOfStream s.length) := by
  unfold decodeToken
  rw [if_pos h]

theorem decodeToken_true_short (rest : Bits) (h : 8 ≤ rest.length) (h' : rest.length < 16) :
    decodeToken (true :: rest) = .reject (.truncatedMatch rest.length) := by
  unfold decodeToken
  rw [if_neg (by simp; omega)]
  simp only [Config.matchPayloadBits]
  rw [if_pos h']

/-- Everything `decodeToken` can answer: the end, a LIT, a truncated MATCH or a MATCH, by the flag and the length. -/
theorem decodeToken_cases (s : Bits) :
    (s.length < 9 ∧ decodeToken s = .reject (.endOfStream s.length)) ∨
    (∃ rest, s = false :: rest ∧ 8 ≤ rest.length ∧
      decodeToken s = .token (.lit (BitVec.ofNat 8 (bitRead rest 0 8))) (rest.drop 8)) ∨
    (∃ rest, s = true :: rest ∧ 8 ≤ rest.length ∧ rest.length < 16 ∧
      decodeToken s = .reject (.truncatedMatch rest.length)) ∨
    (∃ rest, s = true :: rest ∧ 16 ≤ rest.length ∧
      decodeToken s =
        .token (.matchTok (distanceOf (bitRead rest 0 8) (bitRead rest 8 8)) (lengthOf (bitRead rest 8 8)))
          (rest.drop 16)) := by
  by_cases h : s.length < 9
  · exact .inl ⟨h, decodeToken_short h⟩
  · match s, h with
    | false :: rest, h =>
      have : 8 ≤ rest.length := by simp at h; omega
      exact .inr (.inl ⟨rest, rfl, this, decodeToken_false rest this⟩)
    | true :: rest, h =>
      have h8 : 8 ≤ rest.length := by simp at h; omega
      by_cases h' : rest.length < 16
      · exact .inr (.inr (.inl ⟨rest, rfl, h8, h', decodeToken_true_short rest h8 h'⟩))
      · exact .inr (.inr (.inr ⟨rest, rfl, by omega, decodeToken_true rest (by omega)⟩))

/-- A decoded token does not depend on what follows its bits. -/
theorem decodeToken_append {s rest : Bits} {i : Instr} (t : Bits) (h : decodeToken s = .token i rest) :
    decodeToken (s ++ t) = .token i (rest ++ t) := by
  obtain ⟨_, e⟩ | ⟨r, rfl, h8, e⟩ | ⟨_, _, _, _, e⟩ | ⟨r, rfl, h16, e⟩ := decodeToken_cases s
  · rw [e] at h; cases h
  · rw [e] at h; cases h
    rw [List.cons_append, decodeToken_false _ (by simp; omega), bitRead_append_of_le (by omega),
      List.drop_append_of_le_length h8]
  · rw [e] at h; cases h
  · rw [e] at h; cases h
    rw [List.cons_append, decodeToken_true _ (by simp; omega), bitRead_append_of_le (by omega),
      bitRead_append_of_le (by omega), List.drop_append_of_le_length h16]

end Sys2Proof
end

