-- ==== Sys2Proof/Laws/Finder.lean ====
section
/-! SUPPORT. The match finder's loops: what the run count says, and what the scan has found after n distances. -/

namespace Sys2Proof.Machine

variable (data : Bytes) (pos d : Nat)

theorem tileByteMatches_iff (k : Nat) :
    tileByteMatches data pos d k = true ↔ data[pos + k]? = data[pos - d + k % d]? := by
  simp [tileByteMatches, memRead]

theorem runFrom_ge (fuel k : Nat) : k ≤ runFrom data pos d fuel k := by
  induction fuel generalizing k with
  | zero => exact le_rfl
  | succ fuel ih =>
    rw [runFrom]
    split
    · exact le_trans (Nat.le_succ k) (ih (k + 1))
    · exact le_rfl

theorem runFrom_le (fuel k : Nat) : runFrom data pos d fuel k ≤ k + fuel := by
  induction fuel generalizing k with
  | zero => exact le_rfl
  | succ fuel ih =>
    rw [runFrom]
    split
    · exact le_trans (ih (k + 1)) (by omega)
    · omega

/-- Every byte before the run count matched. -/
theorem tileByteMatches_of_lt_runFrom {fuel k j : Nat} (hk : k ≤ j) (hj : j < runFrom data pos d fuel k) :
    tileByteMatches data pos d j = true := by
  induction fuel generalizing k with
  | zero => rw [runFrom] at hj; omega
  | succ fuel ih =>
    rw [runFrom] at hj
    split at hj
    · rcases Nat.eq_or_lt_of_le hk with rfl | h
      · assumption
      · exact ih h hj
    · omega

/-- Bytes that all match are counted: the run reaches any length below which every byte matches. -/
theorem le_runFrom {fuel k n : Nat} (hn : n ≤ k + fuel)
    (h : ∀ j, k ≤ j → j < n → tileByteMatches data pos d j = true) : n ≤ max k (runFrom data pos d fuel k) := by
  induction fuel generalizing k with
  | zero => simp [runFrom]; omega
  | succ fuel ih =>
    rw [runFrom]
    by_cases hk : k < n
    · rw [if_pos (h k le_rfl hk)]
      have h1 := ih (k := k + 1) (by omega) fun j hj => h j (by omega)
      have h2 := runFrom_ge data pos d fuel (k + 1)
      omega
    · omega

theorem runLength_le_maxL : runLength data pos d ≤ maxL data.length pos := by
  unfold runLength
  simpa using runFrom_le data pos d (maxL data.length pos) 0

/-- What a scan has found after the distances 1 .. n: nothing, or the longest run with its smallest distance. -/
def ScanFound (n : Nat) (f : FinderWork) : Prop :=
  (f.bestL = 0 ∧ ∀ d, 1 ≤ d → d ≤ n → runLength data pos d < 2) ∨
  (2 ≤ f.bestL ∧ 1 ≤ f.bestD ∧ f.bestD ≤ n ∧ runLength data pos f.bestD = f.bestL ∧
    ∀ d, 1 ≤ d → d ≤ n → runLength data pos d ≤ f.bestL ∧ (runLength data pos d = f.bestL → f.bestD ≤ d))

theorem scanFound_consider {n : Nat} {f : FinderWork} (h : ScanFound data pos n f) :
    ScanFound data pos (n + 1) (f.consider data pos (n + 1)) := by
  unfold FinderWork.consider
  simp only [Config.minMatch]
  split
  · rename_i hc
    refine .inr ⟨hc.1, by simp, le_rfl, rfl, fun d h1 hd => ?_⟩
    rcases Nat.eq_or_lt_of_le hd with rfl | hlt
    · exact ⟨le_rfl, fun _ => le_rfl⟩
    · obtain ⟨_, hno⟩ | ⟨_, _, _, _, hb⟩ := h
      · have := hno d h1 (by omega)
        exact ⟨by show _ ≤ runLength data pos (n + 1); omega, fun e => by
          have : runLength data pos d = runLength data pos (n + 1) := e
          omega⟩
      · have := hb d h1 (by omega)
        exact ⟨by show _ ≤ runLength data pos (n + 1); omega, fun e => by
          have : runLength data pos d = runLength data pos (n + 1) := e
          omega⟩
  · rename_i hc
    obtain ⟨h0, hno⟩ | ⟨h2, h1, hle, hrun, hb⟩ := h
    · refine .inl ⟨h0, fun d h1 hd => ?_⟩
      rcases Nat.eq_or_lt_of_le hd with rfl | hlt
      · omega
      · exact hno d h1 (by omega)
    · refine .inr ⟨h2, h1, Nat.le_succ_of_le hle, hrun, fun d hd1 hd => ?_⟩
      rcases Nat.eq_or_lt_of_le hd with rfl | hlt
      · show _ ≤ f.bestL ∧ (_ = f.bestL → f.bestD ≤ _)
        omega
      · exact hb d hd1 (by omega)

theorem scanFound_fold (n : Nat) :
    ScanFound data pos n ((List.range' 1 n).foldl (FinderWork.consider data pos) FinderWork.start) := by
  induction n with
  | zero => exact .inl ⟨rfl, fun d h1 h2 => by omega⟩
  | succ n ih =>
    rw [List.range'_1_concat, List.foldl_append, Nat.add_comm 1 n]
    exact scanFound_consider data pos ih

/-- The whole scan has found the best of all eligible distances. -/
theorem scanFound_scan (w : Nat) : ScanFound data pos (dMax w pos) (FinderWork.scan data pos w) :=
  scanFound_fold data pos (dMax w pos)

/-- The finder's answer by cases: no distance has a run of 2, or the answer is a distance with the longest run, and the
smallest such. -/
theorem findLongestMatch_cases (w : Nat) :
    (findLongestMatch data pos w = none ∧ ∀ d, 1 ≤ d → d ≤ min w pos → runLength data pos d < 2) ∨
    (∃ d len, findLongestMatch data pos w = some (d, len) ∧ 1 ≤ d ∧ d ≤ min w pos ∧ 2 ≤ len ∧
      runLength data pos d = len ∧
      ∀ d', 1 ≤ d' → d' ≤ min w pos →
        runLength data pos d' ≤ len ∧ (runLength data pos d' = len → d ≤ d')) := by
  unfold findLongestMatch
  obtain ⟨h0, hno⟩ | ⟨h2, h1, hle, hrun, hb⟩ := scanFound_scan data pos w
  · exact .inl ⟨if_pos h0, hno⟩
  · exact .inr ⟨_, _, if_neg (by omega), h1, hle, h2, hrun, hb⟩

end Sys2Proof.Machine
end

