-- ==== Sys2Proof/Laws/Encoder.lean ====
section
/-! SUPPORT. The encoder step, said once, and induction over the greedy parse. -/

namespace Sys2Proof.Machine

/-- The bounds of a match the finder reports (40_match_finder.md R150). -/
theorem findLongestMatch_bounds {data : Bytes} {pos w d len : Nat} (h : findLongestMatch data pos w = some (d, len)) :
    1 ≤ d ∧ d ≤ min w pos ∧ 2 ≤ len ∧ len ≤ min 15 (data.length - pos) := by
  obtain ⟨e, _⟩ | ⟨d', len', e, h1, h2, h3, h4, _⟩ := findLongestMatch_cases data pos w
  · rw [e] at h; cases h
  · rw [e] at h
    cases h
    have := runLength_le_maxL data pos d
    simp only [maxL, Config.lookahead] at this
    exact ⟨h1, h2, h3, by omega⟩

/-- EMIT_MATCH appends the encoding of its token. -/
theorem emitMatch_eq (d len : Nat) (enc : Bits) :
    emitMatch d len enc = enc ++ (true :: (bitsOf 8 (highByte d) ++ bitsOf 8 (lowByte d len))) := by
  simp [emitMatch, bitAppend, bitsOf]

/-- EMIT_LIT appends the encoding of its token. -/
theorem emitLit_eq (b : Byte) (enc : Bits) : emitLit b enc = enc ++ (false :: bitsOf 8 b.toNat) := by
  simp [emitLit, bitAppend, bitsOf]

/-- Everything an encoder step does inside IN: it emits one token, the parse's next, keeps IN and W, appends the token's
bits and advances by the token's span, which stays inside IN (R181, R184). -/
theorem encoderStep_spec {c : Compressor} (hc : c.cur < c.n) :
    ∃ i c' bits, encoderStep c = some c' ∧ c'.input = c.input ∧ c'.w = c.w ∧ c'.cur = c.cur + spanOf i ∧
      1 ≤ spanOf i ∧ c.cur + spanOf i ≤ c.n ∧ encode i = some bits ∧ c'.enc = c.enc ++ bits ∧
      ∀ fuel, parseFrom c.w c.input (fuel + 1) c.cur = i :: parseFrom c.w c.input fuel c'.cur := by
  unfold Compressor.n at hc
  cases h : findLongestMatch c.input c.cur c.w with
  | some p =>
    obtain ⟨d, len⟩ := p
    have hb := findLongestMatch_bounds h
    refine ⟨.matchTok d len, { c with enc := emitMatch d len c.enc, cur := c.cur + len }, _, by simp [encoderStep, h], rfl,
      rfl, rfl, by simp [spanOf]; omega, by simp [spanOf, Compressor.n]; omega, rfl, emitMatch_eq _ _ _, ?_⟩
    intro fuel
    simp [parseFrom, hc, h]
  | none =>
    have hb : c.input[c.cur]? = some c.input[c.cur] := List.getElem?_eq_getElem hc
    refine ⟨.lit c.input[c.cur], { c with enc := emitLit c.input[c.cur] c.enc, cur := c.cur + 1 }, _,
      by simp [encoderStep, h, memRead, hb], rfl, rfl, rfl, le_rfl, hc, rfl, emitLit_eq _ _, ?_⟩
    intro fuel
    simp [parseFrom, hc, h, memRead]

/-- Induction over the greedy parse (R181): what holds at the end of the input and of a match or a literal before a
position it holds at, holds of the parse from every position. -/
theorem parseFrom_induction (w : Nat) (data : Bytes) {P : Nat → List Instr → Prop} (hend : P data.length [])
    (hmatch : ∀ pos d len ts, pos < data.length → findLongestMatch data pos w = some (d, len) → P (pos + len) ts →
      P pos (.matchTok d len :: ts))
    (hlit : ∀ pos b ts, pos < data.length → findLongestMatch data pos w = none → data[pos]? = some b → P (pos + 1) ts →
      P pos (.lit b :: ts)) :
    ∀ fuel pos, pos ≤ data.length → data.length ≤ pos + fuel → P pos (parseFrom w data fuel pos) := by
  intro fuel
  induction fuel with
  | zero =>
    intro pos h1 h2
    have : pos = data.length := by omega
    rw [this]
    exact hend
  | succ fuel ih =>
    intro pos h1 h2
    rw [parseFrom]
    by_cases hc : pos < data.length
    · rw [if_pos hc]
      cases h : findLongestMatch data pos w with
      | some p =>
        obtain ⟨d, len⟩ := p
        have hb := findLongestMatch_bounds h
        exact hmatch pos d len _ hc h (ih _ (by omega) (by omega))
      | none =>
        have hb : data[pos]? = some data[pos] := List.getElem?_eq_getElem hc
        simp only [memRead, hb]
        exact hlit pos _ _ hc h hb (ih _ (by omega) (by omega))
    · rw [if_neg hc]
      have : pos = data.length := by omega
      rw [this]
      exact hend

/-- A list of tokens with bits begins with a token's bits. -/
theorem encodeTokens_cons {i : Instr} {ts : List Instr} {bits : Bits} (h : encodeTokens (i :: ts) = some bits) :
    ∃ a b, encode i = some a ∧ encodeTokens ts = some b ∧ bits = a ++ b := by
  rw [encodeTokens] at h
  split at h
  · cases h; exact ⟨_, _, ‹_›, ‹_›, rfl⟩
  · cases h

end Sys2Proof.Machine
end

