-- ==== Sys2Proof/Laws/State.lean ====
section
/-! SUPPORT. What each update of State leaves and writes, one lemma a field, so that no proof unfolds a record update. -/

namespace Sys2Proof.Machine

variable (s : State) (r : Response) (e : Error) (x : Result) (c : Command) (w : Nat) (f : Search) (cmp : Compressor) (d : Decoder)
  (rest : List Command)

@[simp] theorem respond_params : (respond r s).params = s.params := rfl
@[simp] theorem respond_cfg : (respond r s).cfg = s.cfg := rfl
@[simp] theorem respond_activity : (respond r s).activity = .idle := rfl
@[simp] theorem respond_waiting : (respond r s).waiting = s.waiting := rfl
@[simp] theorem respond_responses : (respond r s).responses = s.responses ++ [r] := rfl
@[simp] theorem respond_resetRequested : (respond r s).resetRequested = s.resetRequested := rfl

@[simp] theorem finish_params : (finish x s).params = s.params := rfl
@[simp] theorem finish_cfg : (finish x s).cfg = s.cfg := rfl
@[simp] theorem finish_activity : (finish x s).activity = .idle := rfl
@[simp] theorem finish_waiting : (finish x s).waiting = s.waiting := rfl
@[simp] theorem finish_responses : (finish x s).responses = s.responses ++ [.ok x] := rfl
@[simp] theorem finish_resetRequested : (finish x s).resetRequested = s.resetRequested := rfl

@[simp] theorem raise_params : (raise e s).params = s.params := rfl
@[simp] theorem raise_cfg : (raise e s).cfg = s.cfg := rfl
@[simp] theorem raise_activity : (raise e s).activity = .idle := rfl
@[simp] theorem raise_waiting : (raise e s).waiting = s.waiting := rfl
@[simp] theorem raise_responses : (raise e s).responses = s.responses ++ [.err e] := rfl
@[simp] theorem raise_resetRequested : (raise e s).resetRequested = s.resetRequested := rfl

@[simp] theorem waitFor_params : (waitFor c s).params = s.params := rfl
@[simp] theorem waitFor_cfg : (waitFor c s).cfg = s.cfg := rfl
@[simp] theorem waitFor_activity : (waitFor c s).activity = s.activity := rfl
@[simp] theorem waitFor_waiting : (waitFor c s).waiting = c :: s.waiting := rfl
@[simp] theorem waitFor_responses : (waitFor c s).responses = s.responses := rfl
@[simp] theorem waitFor_resetRequested : (waitFor c s).resetRequested = s.resetRequested := rfl

@[simp] theorem setWindow_params : (s.setWindow w).params = s.params := rfl
@[simp] theorem setWindow_cfg : (s.setWindow w).cfg = BitVec.ofNat 9 w := rfl
@[simp] theorem setWindow_activity : (s.setWindow w).activity = s.activity := rfl
@[simp] theorem setWindow_waiting : (s.setWindow w).waiting = s.waiting := rfl
@[simp] theorem setWindow_responses : (s.setWindow w).responses = s.responses := rfl
@[simp] theorem setWindow_resetRequested : (s.setWindow w).resetRequested = s.resetRequested := rfl

@[simp] theorem accept_params : (accept c rest s).params = s.params := rfl
@[simp] theorem accept_cfg : (accept c rest s).cfg = s.cfg := rfl
@[simp] theorem accept_activity : (accept c rest s).activity = .accepted c := rfl
@[simp] theorem accept_waiting : (accept c rest s).waiting = rest := rfl
@[simp] theorem accept_responses : (accept c rest s).responses = s.responses := rfl
@[simp] theorem accept_resetRequested : (accept c rest s).resetRequested = s.resetRequested := rfl

@[simp] theorem asIdle_params : s.asIdle.params = s.params := rfl
@[simp] theorem asIdle_cfg : s.asIdle.cfg = s.cfg := rfl
@[simp] theorem asIdle_activity : s.asIdle.activity = .idle := rfl
@[simp] theorem asIdle_waiting : s.asIdle.waiting = s.waiting := rfl
@[simp] theorem asIdle_responses : s.asIdle.responses = s.responses := rfl
@[simp] theorem asIdle_resetRequested : s.asIdle.resetRequested = s.resetRequested := rfl

@[simp] theorem putSearch_params : (s.putSearch f).params = s.params := rfl
@[simp] theorem putSearch_cfg : (s.putSearch f).cfg = s.cfg := rfl
@[simp] theorem putSearch_activity : (s.putSearch f).activity = .finding f := rfl
@[simp] theorem putSearch_waiting : (s.putSearch f).waiting = s.waiting := rfl
@[simp] theorem putSearch_responses : (s.putSearch f).responses = s.responses := rfl
@[simp] theorem putSearch_resetRequested : (s.putSearch f).resetRequested = s.resetRequested := rfl

@[simp] theorem putCompressor_params : (s.putCompressor cmp).params = s.params := rfl
@[simp] theorem putCompressor_cfg : (s.putCompressor cmp).cfg = s.cfg := rfl
@[simp] theorem putCompressor_activity : (s.putCompressor cmp).activity = .compressing cmp := rfl
@[simp] theorem putCompressor_waiting : (s.putCompressor cmp).waiting = s.waiting := rfl
@[simp] theorem putCompressor_responses : (s.putCompressor cmp).responses = s.responses := rfl
@[simp] theorem putCompressor_resetRequested : (s.putCompressor cmp).resetRequested = s.resetRequested := rfl

@[simp] theorem putDecoder_params : (s.putDecoder d).params = s.params := rfl
@[simp] theorem putDecoder_cfg : (s.putDecoder d).cfg = s.cfg := rfl
@[simp] theorem putDecoder_activity : (s.putDecoder d).activity = .decompressing d := rfl
@[simp] theorem putDecoder_waiting : (s.putDecoder d).waiting = s.waiting := rfl
@[simp] theorem putDecoder_responses : (s.putDecoder d).responses = s.responses := rfl
@[simp] theorem putDecoder_resetRequested : (s.putDecoder d).resetRequested = s.resetRequested := rfl

@[simp] theorem takeReset_params : (takeReset s).params = s.params := rfl
@[simp] theorem takeReset_cfg : (takeReset s).cfg = 20#9 := rfl
@[simp] theorem takeReset_activity : (takeReset s).activity = .idle := rfl
@[simp] theorem takeReset_waiting : (takeReset s).waiting = s.waiting := rfl
@[simp] theorem takeReset_responses : (takeReset s).responses = s.responses := rfl
@[simp] theorem takeReset_resetRequested : (takeReset s).resetRequested = false := rfl

end Sys2Proof.Machine
end

