-- ==== Sys2Proof/Laws/Ops.lean ====
section
/-! SUPPORT. Everything a shared operation, a meaning and a step can do, said once: the lemmas to cite instead of unfolding. -/

namespace Sys2Proof.Machine

/-! ## Capacities and appends -/

theorem beyond_eq_true_iff (limit : Option Nat) (n : Nat) :
    beyond limit n = true ↔ ∃ m, limit = some m ∧ m < n := by
  cases limit <;> simp [beyond]

theorem beyond_eq_false_iff (limit : Option Nat) (n : Nat) :
    beyond limit n = false ↔ ∀ m, limit = some m → n ≤ m := by
  cases limit <;> simp [beyond]

theorem beyond_eq_false_of_le {limit : Option Nat} {m n : Nat} (h : beyond limit n = false) (hm : m ≤ n) :
    beyond limit m = false := by
  rw [beyond_eq_false_iff] at *
  exact fun x hx => le_trans hm (h x hx)

/-- An append within the capacity. -/
theorem histAppend_of_room {p : Params} {out : Bytes} (b : Byte) (h : beyond p.maxOutputBytes (out.length + 1) = false) :
    histAppend p b out = some (out ++ [b]) := by
  simp [histAppend, h]

/-- An append at a full history. -/
theorem histAppend_of_full {p : Params} {out : Bytes} (b : Byte) (h : beyond p.maxOutputBytes (out.length + 1) = true) :
    histAppend p b out = none := by
  simp [histAppend, h]

/-- An append that succeeds adds its byte at the end. -/
theorem histAppend_eq_some {p : Params} {out out' : Bytes} {b : Byte} (h : histAppend p b out = some out') :
    out' = out ++ [b] ∧ beyond p.maxOutputBytes out'.length = false := by
  unfold histAppend at h
  split at h
  · cases h
  · rename_i hb
    cases h
    exact ⟨rfl, by simpa using hb⟩

/-- A read of the history that succeeds is inside it. -/
theorem histRead_eq_some {out : Bytes} {d : Nat} {b : Byte} (h : histRead out d = some b) :
    1 ≤ d ∧ d ≤ out.length ∧ out[out.length - d]? = some b := by
  unfold histRead at h
  split at h
  · split at h
    · exact ⟨‹_›, ‹_›, h⟩
    · cases h
  · cases h

/-- A read inside the history succeeds (R246). -/
theorem histRead_of_le {out : Bytes} {d : Nat} (h1 : 1 ≤ d) (h : d ≤ out.length) :
    histRead out d = out[out.length - d]? := by
  simp [histRead, h1, h]

/-- `appendByte` by cases: the byte is appended, or CAPACITY ends the command. -/
theorem appendByte_cases (k : Nat) (b : Byte) (fsm : Fsm) (d : Decoder) (s : State) :
    (beyond s.params.maxOutputBytes (d.out.length + 1) = false ∧
      appendByte k b fsm d s = s.putDecoder { d with out := d.out ++ [b], fsm := fsm }) ∨
    (beyond s.params.maxOutputBytes (d.out.length + 1) = true ∧
      appendByte k b fsm d s = raise (.capacity (.flagOffset k)) s) := by
  unfold appendByte
  cases h : beyond s.params.maxOutputBytes (d.out.length + 1)
  · exact .inl ⟨rfl, by rw [histAppend_of_room b h]⟩
  · exact .inr ⟨rfl, by rw [histAppend_of_full b h]⟩

/-- `startCopy` by cases: the distance error, an empty copy, or the Copy state. -/
theorem startCopy_cases (d len : Nat) (dec : Decoder) (s : State) :
    ((d = 0 ∨ dec.out.length < d) ∧ startCopy d len dec s = raise (.decodeDistance (dec.rp - 17) d len) s) ∨
    (1 ≤ d ∧ d ≤ dec.out.length ∧
      startCopy d len dec s = s.putDecoder { dec with fsm := if len = 0 then .readFlag else .copy d len }) := by
  unfold startCopy
  split
  · exact .inl ⟨‹_›, rfl⟩
  · refine .inr ⟨by omega, by omega, ?_⟩
    split <;> simp_all

/-! ## The tokens -/

theorem state_atPayload_of_decompressing {s : State} {d : Decoder} (h : s.activity = .decompressing d) (flag : Bool) :
    s.atPayload flag = d.atPayload flag := by
  simp [State.atPayload, h]

/-- Where a token of a kind can be executed: the decoder is at its flag with at least 9 bits left, or at its own state. -/
theorem state_atPayload_eq_some {s : State} {flag : Bool} {d : Decoder} (h : s.atPayload flag = some d) :
    ∃ dec, s.activity = .decompressing dec ∧ d.stream = dec.stream ∧ d.out = dec.out ∧
      (dec.fsm = .readFlag ∧ 9 ≤ dec.remaining ∧ d = dec.popFlag flag ∨ dec.fsm = Fsm.afterFlag flag ∧ d = dec) := by
  unfold State.atPayload at h
  split at h
  · cases h
  · cases h
  · cases h
  · cases h
  · rename_i dec ha
    refine ⟨dec, ha, ?_⟩
    unfold Decoder.atPayload at h
    split at h
    · split at h
      · cases h
      · cases h
        rename_i hf hr
        exact ⟨rfl, rfl, .inl ⟨hf, by simpa using hr, rfl⟩⟩
    · cases flag
      · cases h; exact ⟨rfl, rfl, .inr ⟨‹_›, rfl⟩⟩
      · cases h
    · cases flag
      · cases h
      · cases h; exact ⟨rfl, rfl, .inr ⟨‹_›, rfl⟩⟩
    · cases h

/-- Everything LIT can do when it answers a next state. -/
theorem execLit_cases {b : Byte} {s t : State} (h : execLit b s = .next t) :
    ∃ d, s.atPayload false = some d ∧ 8 ≤ d.remaining ∧
      t = appendByte (d.rp - 1) b .readFlag { d with rp := d.rp + 8 } s := by
  unfold execLit at h
  split at h
  · cases h
  · rename_i d hd
    split at h
    · cases h
    · cases h
      rename_i hr
      exact ⟨d, hd, by simpa using hr, rfl⟩

/-- Everything MATCH can do when it answers a next state. -/
theorem execMatchTok_cases {d len : Nat} {s t : State} (h : execMatchTok d len s = .next t) :
    ∃ dec, s.atPayload true = some dec ∧
      ((dec.remaining < 16 ∧ t = raise (.decodeTruncated (dec.rp - 1)) s) ∨
       (16 ≤ dec.remaining ∧ t = startCopy d len { dec with rp := dec.rp + 16 } s)) := by
  unfold execMatchTok at h
  split at h
  · cases h
  · rename_i dec hd
    refine ⟨dec, hd, ?_⟩
    split at h
    · cases h; exact .inl ⟨‹_›, rfl⟩
    · cases h
      rename_i hr
      exact .inr ⟨by simpa using hr, rfl⟩

/-- Everything a copy step can do when it answers a next state. -/
theorem copyStep_cases {d rem : Nat} {dec : Decoder} {s t : State} (h : copyStep d rem dec s = .next t) :
    ∃ b, histRead dec.out d = some b ∧ t = appendByte (dec.rp - 17) b (Fsm.afterCopy d (rem - 1)) dec s := by
  unfold copyStep at h
  split at h
  · cases h
  · cases h; exact ⟨_, ‹_›, rfl⟩

/-! ## The commands -/

theorem whenIdle_of_idle {s : State} (c : Command) (run : State) (h : s.activity = .idle) :
    whenIdle c s run = .next run := by
  simp [whenIdle, h]

theorem whenIdle_of_busy {s : State} (c : Command) (run : State) (h : s.activity ≠ .idle) :
    whenIdle c s run = .next (waitFor c s) := by
  unfold whenIdle
  split
  · exact absurd ‹_› h
  · rfl
  · rfl
  · rfl
  · rfl

/-- The meaning of each command on an idle core. -/
def runCommand (c : Command) (s : State) : State :=
  match c with
  | .configure w => runConfigure w s
  | .findMatch data pos => runFindMatch data pos s
  | .compress data => runCompress data s
  | .decompress bytes => runDecompress bytes s

/-- An idle core runs the command. -/
theorem exec_command_of_idle {s : State} (c : Command) (h : s.activity = .idle) :
    exec c.toInstr s = .next (runCommand c s) := by
  cases c <;> exact whenIdle_of_idle _ _ h

/-- A busy core lets the command wait. -/
theorem exec_command_of_busy {s : State} (c : Command) (h : s.activity ≠ .idle) :
    exec c.toInstr s = .next (waitFor c s) := by
  cases c <;> exact whenIdle_of_busy _ _ h

/-! ## One step -/

theorem step_of_reset {s : State} (h : s.resetRequested = true) : step s = .next (takeReset s) := by
  simp [step, nextAction, h]

theorem step_of_idle {s : State} (hr : s.resetRequested = false) (ha : s.activity = .idle) (hw : s.waiting = []) :
    step s = .next s := by
  simp [step, nextAction, hr, ha, idleAction, hw]

theorem step_of_waiting {s : State} {c : Command} {rest : List Command} (hr : s.resetRequested = false)
    (ha : s.activity = .idle) (hw : s.waiting = c :: rest) : step s = .next (accept c rest s) := by
  simp [step, nextAction, hr, ha, idleAction, hw]

theorem step_of_accepted {s : State} {c : Command} (hr : s.resetRequested = false) (ha : s.activity = .accepted c) :
    step s = .next (runCommand c s.asIdle) := by
  rw [← exec_command_of_idle c (asIdle_activity s)]
  simp [step, nextAction, hr, ha]

theorem step_of_finding {s : State} {f : Search} (hr : s.resetRequested = false) (ha : s.activity = .finding f) :
    step s = .next (finish (.found (findLongestMatch f.input f.pos f.w)) s) := by
  simp [step, nextAction, hr, ha, searchStep]

theorem step_of_compressing {s : State} {c : Compressor} (hr : s.resetRequested = false)
    (ha : s.activity = .compressing c) : step s = compressStep c s := by
  simp [step, nextAction, hr, ha]

theorem nextAction_of_decompressing {s : State} {d : Decoder} (hr : s.resetRequested = false)
    (ha : s.activity = .decompressing d) : nextAction s = d.action := by
  simp [nextAction, hr, ha]

/-- What a decoder does next, by its state. -/
theorem action_cases (d : Decoder) :
    (d.fsm = .readFlag ∧ d.action = d.fetch) ∨
    (d.fsm = .readLiteral ∧ d.action = .token (.lit (BitVec.ofNat 8 (bitRead d.stream d.rp 8)))) ∨
    (d.fsm = .readMatch ∧ d.remaining < 16 ∧ d.action = .truncated (d.rp - 1)) ∨
    (d.fsm = .readMatch ∧ 16 ≤ d.remaining ∧
      d.action = .token (.matchTok (distanceOf (bitRead d.stream d.rp 8) (bitRead d.stream (d.rp + 8) 8))
        (lengthOf (bitRead d.stream (d.rp + 8) 8)))) ∨
    (∃ cd rem, d.fsm = .copy cd rem ∧ d.action = .copy cd rem d) := by
  unfold Decoder.action
  cases h : d.fsm with
  | readFlag => exact .inl ⟨rfl, rfl⟩
  | readLiteral => exact .inr (.inl ⟨rfl, rfl⟩)
  | readMatch =>
    by_cases hr : d.remaining < 16
    · exact .inr (.inr (.inl ⟨rfl, hr, by simp [hr]⟩))
    · exact .inr (.inr (.inr (.inl ⟨rfl, by omega, by simp [hr]⟩)))
  | copy cd rem => exact .inr (.inr (.inr (.inr ⟨cd, rem, rfl, rfl⟩)))

/-- What is fetched at a flag, by what the decoder reads there. -/
theorem fetch_cases (d : Decoder) :
    (∃ n, decodeToken (d.stream.drop d.rp) = .reject (.endOfStream n) ∧ d.fetch = .endOfStream d.out) ∨
    (∃ n, decodeToken (d.stream.drop d.rp) = .reject (.truncatedMatch n) ∧ d.fetch = .truncated d.rp) ∨
    (∃ i rest, decodeToken (d.stream.drop d.rp) = .token i rest ∧ d.fetch = .token i) := by
  unfold Decoder.fetch
  cases h : decodeToken (d.stream.drop d.rp) with
  | token i rest => exact .inr (.inr ⟨i, rest, rfl, rfl⟩)
  | reject r =>
    cases r with
    | endOfStream n => exact .inl ⟨n, rfl, rfl⟩
    | truncatedMatch n => exact .inr (.inl ⟨n, rfl, rfl⟩)

/-- Everything a step of a running DECOMPRESS can be. -/
theorem step_of_decompressing {s : State} {d : Decoder} (hr : s.resetRequested = false)
    (ha : s.activity = .decompressing d) :
    (d.fsm = .readFlag ∧ (∃ n, decodeToken (d.stream.drop d.rp) = .reject (.endOfStream n)) ∧
      step s = .next (finish (.bytes d.out) s)) ∨
    (∃ k, step s = .next (raise (.decodeTruncated k) s)) ∨
    (∃ i, i.isToken = true ∧ step s = exec i s) ∨
    (∃ cd rem, d.fsm = .copy cd rem ∧ step s = copyStep cd rem d s) := by
  have hn := nextAction_of_decompressing hr ha
  obtain ⟨hf, e⟩ | ⟨hf, e⟩ | ⟨hf, _, e⟩ | ⟨hf, _, e⟩ | ⟨cd, rem, hf, e⟩ := action_cases d
  · obtain ⟨n, hd, e'⟩ | ⟨n, hd, e'⟩ | ⟨i, rest, hd, e'⟩ := fetch_cases d
    · exact .inl ⟨hf, ⟨n, hd⟩, by simp [step, hn, e, e']⟩
    · exact .inr (.inl ⟨d.rp, by simp [step, hn, e, e']⟩)
    · refine .inr (.inr (.inl ⟨i, ?_, by simp [step, hn, e, e']⟩))
      unfold decodeToken at hd
      split at hd
      · cases hd
      · split at hd
        · cases hd
        · cases hd; rfl
        · split at hd
          · cases hd
          · cases hd; rfl
  · exact .inr (.inr (.inl ⟨.lit (BitVec.ofNat 8 (bitRead d.stream d.rp 8)), rfl, by simp [step, hn, e]⟩))
  · exact .inr (.inl ⟨d.rp - 1, by simp [step, hn, e]⟩)
  · exact .inr (.inr (.inl
      ⟨.matchTok (distanceOf (bitRead d.stream d.rp 8) (bitRead d.stream (d.rp + 8) 8))
        (lengthOf (bitRead d.stream (d.rp + 8) 8)), rfl, by simp [step, hn, e]⟩))
  · exact .inr (.inr (.inr ⟨cd, rem, hf, by simp [step, hn, e]⟩))

end Sys2Proof.Machine
end

