-- ==== Sys2Proof/Laws/Memory.lean ====
section
/-! SUPPORT. Every operation on the buffers keeps their form `Memory.wf` (20_memory.md R70, R81), and reset has it. -/

namespace Sys2Proof.Machine

/-- The decoder's form, clause by clause. -/
theorem decoder_fits_iff (p : Params) (d : Decoder) :
    d.fits p = true ↔
      d.stream.length % 8 = 0 ∧ beyond p.maxStreamBytes (d.stream.length / 8) = false ∧ d.rp ≤ d.stream.length ∧
        beyond p.maxOutputBytes d.out.length = false ∧ d.fsmFits = true := by
  have h : d.fits p = true ↔ d.n % 8 = 0 ∧ beyond p.maxStreamBytes (d.n / 8) = false ∧ d.rp ≤ d.n ∧
      beyond p.maxOutputBytes d.out.length = false ∧ d.fsmFits = true := by
    simp [Decoder.fits, and_assoc]
  exact h

/-- The compressor's form, clause by clause. -/
theorem compressor_fits_iff (p : Params) (w : Nat) (c : Compressor) :
    c.fits p w = true ↔ beyond p.maxInputBytes c.input.length = false ∧ c.w = w ∧ c.cur ≤ c.input.length := by
  have h : c.fits p w = true ↔ beyond p.maxInputBytes c.n = false ∧ c.w = w ∧ c.cur ≤ c.n := by
    simp [Compressor.fits, and_assoc]
  exact h

/-- The search's form, clause by clause. -/
theorem search_fits_iff (p : Params) (w : Nat) (f : Search) :
    f.fits p w = true ↔ beyond p.maxInputBytes f.input.length = false ∧ f.w = w ∧ f.pos < f.input.length := by
  simp [Search.fits, and_assoc]

/-- A state with no command in flight has no buffers, so nothing to keep. -/
theorem memory_wf_of_idle {s : State} (h : s.activity = .idle) : Memory.wf s = true := by
  simp [Memory.wf, h]

/-- A command that has not started has no buffers yet. -/
theorem memory_wf_of_accepted {s : State} {c : Command} (h : s.activity = .accepted c) : Memory.wf s = true := by
  simp [Memory.wf, h]

theorem memory_wf_of_finding {s : State} {f : Search} (h : s.activity = .finding f) :
    Memory.wf s = f.fits s.params s.windowSize := by
  simp [Memory.wf, h]

theorem memory_wf_of_compressing {s : State} {c : Compressor} (h : s.activity = .compressing c) :
    Memory.wf s = c.fits s.params s.windowSize := by
  simp [Memory.wf, h]

theorem memory_wf_of_decompressing {s : State} {d : Decoder} (h : s.activity = .decompressing d) :
    Memory.wf s = d.fits s.params := by
  simp [Memory.wf, h]

/-- Reset lists no byte of any buffer. -/
theorem memory_wf_reset : Memory.wf State.reset = true := rfl

/-- A response discards the buffers (R30). -/
theorem memory_wf_respond (r : Response) (s : State) : Memory.wf (respond r s) = true :=
  memory_wf_of_idle (respond_activity s r)

theorem memory_wf_takeReset (s : State) : Memory.wf (takeReset s) = true :=
  memory_wf_of_idle (takeReset_activity s)

/-- An error's entry leaves no buffer behind (R310). -/
theorem memory_wf_raise (e : Error) (s : State) : Memory.wf (raise e s) = true :=
  memory_wf_respond (.err e) s

theorem memory_wf_accept (c : Command) (rest : List Command) (s : State) : Memory.wf (accept c rest s) = true :=
  memory_wf_of_accepted (accept_activity s c rest)

theorem memory_wf_asIdle (s : State) : Memory.wf s.asIdle = true :=
  memory_wf_of_idle (asIdle_activity s)

/-- FIND_MATCH starts in form when its input is within the capacity and its position inside the input (R272). -/
theorem memory_wf_putSearch {s : State} {data : Bytes} {pos : Nat}
    (h : beyond s.params.maxInputBytes data.length = false) (hp : pos < data.length) :
    Memory.wf (s.putSearch { input := data, w := s.windowSize, pos := pos }) = true := by
  rw [memory_wf_of_finding (putSearch_activity _ _), search_fits_iff]
  exact ⟨h, rfl, hp⟩

theorem memory_wf_waitFor (c : Command) (s : State) : Memory.wf (waitFor c s) = Memory.wf s := rfl

/-- COMPRESS starts with its buffers in form when its input is within the capacity (R273). -/
theorem memory_wf_putCompressor_start {s : State} {data : Bytes} (h : beyond s.params.maxInputBytes data.length = false) :
    Memory.wf (s.putCompressor (Compressor.start data s.windowSize)) = true := by
  rw [memory_wf_of_compressing (putCompressor_activity _ _), compressor_fits_iff]
  exact ⟨h, rfl, Nat.zero_le _⟩

/-- An encoder step that keeps IN and W and stays inside IN keeps the form (R181, R190). -/
theorem memory_wf_putCompressor {s : State} {c c' : Compressor} (ha : s.activity = .compressing c)
    (h : Memory.wf s = true) (hi : c'.input = c.input) (hw : c'.w = c.w) (hc : c'.cur ≤ c.input.length) :
    Memory.wf (s.putCompressor c') = true := by
  rw [memory_wf_of_compressing ha, compressor_fits_iff] at h
  rw [memory_wf_of_compressing (putCompressor_activity _ _), compressor_fits_iff, hi, hw]
  exact ⟨h.1, h.2.1, hc⟩

/-- DECOMPRESS starts with its buffers in form when its stream is within the capacity (R274). -/
theorem memory_wf_putDecoder_start {s : State} {bits : Bits} (h8 : bits.length % 8 = 0)
    (h : beyond s.params.maxStreamBytes (bits.length / 8) = false) :
    Memory.wf (s.putDecoder (Decoder.start bits)) = true := by
  rw [memory_wf_of_decompressing (putDecoder_activity _ _), decoder_fits_iff]
  refine ⟨h8, h, Nat.zero_le _, ?_, rfl⟩
  cases hm : s.params.maxOutputBytes <;> simp [beyond, Decoder.start, hm]

/-- The decoder's pops keep the form while RP stays inside S and the new state fits (R211 to R214). -/
theorem memory_wf_putDecoder {s : State} {d d' : Decoder} (ha : s.activity = .decompressing d) (h : Memory.wf s = true)
    (hs : d'.stream = d.stream) (hr : d'.rp ≤ d.stream.length) (ho : d'.out = d.out) (hf : d'.fsmFits = true) :
    Memory.wf (s.putDecoder d') = true := by
  rw [memory_wf_of_decompressing ha, decoder_fits_iff] at h
  rw [memory_wf_of_decompressing (putDecoder_activity _ _), decoder_fits_iff, hs, ho]
  exact ⟨h.1, h.2.1, hr, h.2.2.2.1, hf⟩

/-- An append keeps the form, whether it lands or ends the command with CAPACITY (R81, R248). -/
theorem memory_wf_appendByte {s : State} {d d' : Decoder} (ha : s.activity = .decompressing d) (h : Memory.wf s = true)
    (k : Nat) (b : Byte) (fsm : Fsm) (hs : d'.stream = d.stream) (hr : d'.rp ≤ d.stream.length)
    (hf : Decoder.fsmFits { d' with out := d'.out ++ [b], fsm := fsm } = true) :
    Memory.wf (appendByte k b fsm d' s) = true := by
  obtain ⟨hb, e⟩ | ⟨_, e⟩ := appendByte_cases k b fsm d' s <;> rw [e]
  · rw [memory_wf_of_decompressing ha, decoder_fits_iff] at h
    rw [← hs] at h hr
    rw [memory_wf_of_decompressing (putDecoder_activity _ _), decoder_fits_iff]
    exact ⟨h.1, h.2.1, hr, by simpa using hb, hf⟩
  · exact memory_wf_raise _ s

end Sys2Proof.Machine
end

