-- ==== Sys2Proof/Laws/PerInstr.lean ====
section
/-! SUPPORT. What holds of every instruction as syntax, one lemma a constructor (LAWS.json). -/

namespace Sys2Proof.Laws.Format

/-- The table's format of an instruction: its flag and its width, or none for a command (30_encoding.md R101, R114). -/
def tokenForm : Instr → Option (Bool × Nat)
  | .lit _ => some (false, 9)
  | .matchTok _ _ => some (true, 17)
  | .configure _ => none
  | .findMatch _ _ => none
  | .compress _ => none
  | .decompress _ => none

/-- The encoding has the flag and the width of the table's format, and an instruction without a format has no bits. -/
def Statement (i : Instr) : Prop :=
  (encode i).map (fun bits => (bits.head?, bits.length)) = (tokenForm i).map fun f => (some f.1, f.2)

theorem lit (b : Byte) : Statement (.lit b) := rfl

theorem matchTok (d len : Nat) : Statement (.matchTok d len) := rfl

theorem configure (w : Nat) : Statement (.configure w) := rfl

theorem findMatch (data : Bytes) (pos : Nat) : Statement (.findMatch data pos) := rfl

theorem compress (data : Bytes) : Statement (.compress data) := rfl

theorem decompress (bytes : Bytes) : Statement (.decompress bytes) := rfl

end Sys2Proof.Laws.Format
end

