-- ==== Sys2Proof/Laws/Runs.lean ====
section
/-! SUPPORT. Runs of the core: one step more, and one run after another. -/

namespace Sys2Proof.Machine

/-- `runSteps` is the host's run of this core. -/
theorem runSteps_eq_core_run (k : Nat) (s : State) : runSteps k s = Host.Core.run Sys2Proof.core k s := by
  induction k generalizing s with
  | zero => rfl
  | succ k ih =>
    unfold runSteps
    simp only [Host.Core.run]
    rw [show Sys2Proof.core.step s = step s from rfl]
    cases step s with
    | next t => exact ih t
    | fault r => rfl
    | refused r => rfl

theorem runs_zero (s : State) : Runs 0 s s := rfl

/-- A step and then a run. -/
theorem runs_succ {k : Nat} {s t u : State} (h : step s = .next t) (hr : Runs k t u) : Runs (k + 1) s u := by
  unfold Runs runSteps
  rw [h]
  exact hr

/-- A run of one step or more begins with a step that answers a next state. -/
theorem runs_succ_inv {k : Nat} {s u : State} (h : Runs (k + 1) s u) : ∃ t, step s = .next t ∧ Runs k t u := by
  unfold Runs runSteps at h
  split at h
  · exact ⟨_, ‹_›, h⟩
  · cases h
  · cases h

/-- One run after another. -/
theorem runs_trans {j k : Nat} {s t u : State} (h : Runs j s t) (hr : Runs k t u) : Runs (j + k) s u := by
  induction j generalizing s with
  | zero => cases h; simpa using hr
  | succ j ih =>
    obtain ⟨s', hs, h'⟩ := runs_succ_inv h
    rw [Nat.succ_add]
    exact runs_succ hs (ih h')

end Sys2Proof.Machine
end

