-- ==== Sys2Proof/Laws/Replay.lean ====
section
/-! SUPPORT. The copy steps of the machine carry out MATCH_COPY, and reads behind a growing history. -/

namespace Sys2Proof.Machine

/-- The first `len` bytes of the tiling of the last `d` bytes of a history (43_replay_engine.md R245). -/
def tile (out : Bytes) (d len : Nat) : Bytes :=
  (List.range len).map fun k => out.getD (out.length - d + k % d) 0#8

@[simp] theorem tile_length (out : Bytes) (d len : Nat) : (tile out d len).length = len := by
  simp [tile]

@[simp] theorem tile_zero (out : Bytes) (d : Nat) : tile out d 0 = [] := rfl

theorem tile_succ (out : Bytes) (d len : Nat) :
    tile out d (len + 1) = tile out d len ++ [out.getD (out.length - d + len % d) 0#8] := by
  simp [tile, List.range_succ]

/-- After `k` bytes of the tiling are appended, the byte `d` back is its next byte (R245). -/
theorem histRead_tile {out : Bytes} {d : Nat} (k : Nat) (h1 : 1 ≤ d) (h2 : d ≤ out.length) :
    histRead (out ++ tile out d k) d = some (out.getD (out.length - d + k % d) 0#8) := by
  rw [histRead_of_le h1 (by simp; omega), List.length_append, tile_length]
  by_cases hk : k < d
  · rw [List.getElem?_append_left (by omega), Nat.mod_eq_of_lt hk, List.getD_eq_getElem?_getD,
      show out.length + k - d = out.length - d + k by omega, List.getElem?_eq_getElem (by omega)]
    rfl
  · rw [List.getElem?_append_right (by omega), show out.length + k - d - out.length = k - d by omega]
    simp only [tile, List.getElem?_map]
    rw [List.getElem?_range (by omega), Nat.mod_eq_sub_mod (show k ≥ d by omega)]
    rfl

/-- The copy steps of a match carry out MATCH_COPY (R243): its bytes in one step each, or its error in at most as many. -/
theorem copy_runs {s : State} {dec : Decoder} {d rem : Nat} (hr : s.resetRequested = false) (h1 : 1 ≤ d)
    (ha : s.activity = .decompressing dec) (hf : dec.fsm = Fsm.afterCopy d rem) (h2 : d ≤ dec.out.length) :
    (∀ out, matchCopy s.params (dec.rp - 17) d rem dec.out = .ok out →
      Runs rem s (s.putDecoder { dec with fsm := .readFlag, out := out })) ∧
    (∀ e, matchCopy s.params (dec.rp - 17) d rem dec.out = .error e → ∃ k, 1 ≤ k ∧ k ≤ rem ∧ Runs k s (raise e s)) := by
  induction rem generalizing s dec with
  | zero =>
    refine ⟨fun out h => ?_, fun e h => by cases h⟩
    cases h
    have hsame : s.putDecoder { dec with fsm := .readFlag } = s := by
      have : ({ dec with fsm := .readFlag } : Decoder) = dec := by cases dec; simp_all [Fsm.afterCopy]
      rw [this, State.putDecoder, ← ha]
    show Runs 0 s _
    rw [hsame]
    exact runs_zero s
  | succ rem ih =>
    have hf' : dec.fsm = .copy d (rem + 1) := by rw [hf]; simp [Fsm.afterCopy]
    have hs : step s = copyStep d (rem + 1) dec s := by simp [step, nextAction, hr, ha, Decoder.action, hf']
    obtain ⟨b, hb⟩ : ∃ b, histRead dec.out d = some b :=
      ⟨_, by rw [histRead_of_le h1 h2, List.getElem?_eq_getElem (by omega)]⟩
    have hst : step s = .next (appendByte (dec.rp - 17) b (Fsm.afterCopy d rem) dec s) := by rw [hs]; simp [copyStep, hb]
    rw [matchCopy, hb]
    simp only
    obtain ⟨hc, e⟩ | ⟨hc, e⟩ := appendByte_cases (dec.rp - 17) b (Fsm.afterCopy d rem) dec s
    · rw [e] at hst
      rw [histAppend_of_room _ hc]
      simp only
      have := ih (s := s.putDecoder { dec with out := dec.out ++ [b], fsm := Fsm.afterCopy d rem }) hr rfl rfl
        (by simp; omega)
      refine ⟨fun out h => runs_succ hst (this.1 out h), fun er h => ?_⟩
      obtain ⟨k, _, hk, hr'⟩ := this.2 er h
      exact ⟨k + 1, by omega, by omega, runs_succ hst hr'⟩
    · rw [e] at hst
      rw [histAppend_of_full _ hc]
      simp only
      refine ⟨fun out h => (by cases h), fun er h => ?_⟩
      cases h
      exact ⟨1, by omega, by omega, runs_succ hst (runs_zero _)⟩

end Sys2Proof.Machine
end

