-- ==== Sys2Proof/Laws/Step.lean ====
section
/-! SUPPORT. The inversions: what a command, a token and a whole step of the machine can be, said once. -/

namespace Sys2Proof.Machine

/-- A step of COMPRESS that answers a next state is an encoder step or the end of the command. -/
theorem compressStep_cases {c : Compressor} {s t : State} (h : compressStep c s = .next t) :
    (c.cur < c.n ∧ ∃ c', encoderStep c = some c' ∧ t = s.putCompressor c') ∨
    (c.n ≤ c.cur ∧ t = finish (.bytes (packStep (padStep c.enc))) s) := by
  unfold compressStep at h
  split at h
  · split at h
    · cases h; exact .inl ⟨‹_›, _, ‹_›, rfl⟩
    · cases h
  · cases h; exact .inr ⟨by omega, rfl⟩

/-- Everything a command can do on an idle core: it answers, or FIND_MATCH, COMPRESS or DECOMPRESS goes on. -/
theorem runCommand_cases (c : Command) (s : State) :
    (∃ w, c = .configure w ∧ 1 ≤ w ∧ w ≤ 400 ∧ runCommand c s = finish .done (s.setWindow w)) ∨
    (∃ e, runCommand c s = raise e s ∧ (∀ path dir, e ≠ .ioError path dir) ∧
      ∀ w, c = .configure w → w < 1 ∨ 400 < w) ∨
    (∃ data pos, c = .findMatch data pos ∧ beyond s.params.maxInputBytes data.length = false ∧ pos < data.length ∧
      runCommand c s = s.putSearch { input := data, w := s.windowSize, pos := pos }) ∨
    (∃ data, c = .compress data ∧ beyond s.params.maxInputBytes data.length = false ∧
      runCommand c s = s.putCompressor (.start data s.windowSize)) ∨
    (∃ bytes, c = .decompress bytes ∧ beyond s.params.maxStreamBytes bytes.length = false ∧
      runCommand c s = s.putDecoder (.start (unpack bytes))) := by
  cases c with
  | configure w =>
    simp only [runCommand, runConfigure, Config.windowMin, Config.windowMax]
    split
    · exact .inr (.inl ⟨_, rfl, by simp, fun w' hw => by cases hw; assumption⟩)
    · exact .inl ⟨w, rfl, by omega, by omega, rfl⟩
  | findMatch data pos =>
    simp only [runCommand, runFindMatch]
    split
    · exact .inr (.inl ⟨_, rfl, by simp, by simp⟩)
    · split
      · exact .inr (.inl ⟨_, rfl, by simp, by simp⟩)
      · rename_i hb hp
        exact .inr (.inr (.inl ⟨_, _, rfl, by simpa using hb, by simpa using hp, rfl⟩))
  | compress data =>
    simp only [runCommand, runCompress]
    split
    · exact .inr (.inl ⟨_, rfl, by simp, by simp⟩)
    · rename_i hb
      exact .inr (.inr (.inr (.inl ⟨_, rfl, by simpa using hb, rfl⟩)))
  | decompress bytes =>
    simp only [runCommand, runDecompress]
    split
    · exact .inr (.inl ⟨_, rfl, by simp, by simp⟩)
    · rename_i hb
      exact .inr (.inr (.inr (.inr ⟨_, rfl, by simpa using hb, rfl⟩)))

/-- Everything a token can do: the decoder goes on with S as it was, RP no further back and OUT grown by the token, or the
command ends with one of the core's errors. -/
theorem exec_token_cases {s t : State} {i : Instr} (ht : i.isToken = true) (h : exec i s = .next t) :
    (∃ dec dec', s.activity = .decompressing dec ∧ t = s.putDecoder dec' ∧ dec'.stream = dec.stream ∧ dec.rp ≤ dec'.rp ∧
      (∀ b, i = .lit b → dec'.out = dec.out ++ [b]) ∧ (∀ d len, i = .matchTok d len → dec'.out = dec.out)) ∨
    (∃ dec e, s.activity = .decompressing dec ∧ t = raise e s ∧ ∀ path dir, e ≠ .ioError path dir) := by
  cases i with
  | lit b =>
    obtain ⟨d, hd, hr, rfl⟩ := execLit_cases h
    obtain ⟨dec, ha, h1, h2, h3⟩ := state_atPayload_eq_some hd
    obtain ⟨_, e⟩ | ⟨_, e⟩ := appendByte_cases (d.rp - 1) b .readFlag { d with rp := d.rp + 8 } s <;> rw [e]
    · refine .inl ⟨dec, _, ha, rfl, h1, ?_, by rintro b' hb; cases hb; simp [h2], by simp⟩
      obtain ⟨_, _, rfl⟩ | ⟨_, rfl⟩ := h3 <;> simp [Decoder.popFlag]
      omega
    · exact .inr ⟨dec, _, ha, rfl, by simp⟩
  | matchTok dd len =>
    obtain ⟨d, hd, h⟩ := execMatchTok_cases h
    obtain ⟨dec, ha, h1, h2, h3⟩ := state_atPayload_eq_some hd
    obtain ⟨hr, rfl⟩ | ⟨hr, rfl⟩ := h
    · exact .inr ⟨dec, _, ha, rfl, by simp⟩
    · obtain ⟨_, e⟩ | ⟨_, _, e⟩ := startCopy_cases dd len { d with rp := d.rp + 16 } s <;> rw [e]
      · exact .inr ⟨dec, _, ha, rfl, by simp⟩
      · refine .inl ⟨dec, _, ha, rfl, h1, ?_, by simp, by rintro _ _ _; exact h2⟩
        obtain ⟨_, _, rfl⟩ | ⟨_, rfl⟩ := h3 <;> simp [Decoder.popFlag]
        omega
  | configure w => simp [Instr.isToken] at ht
  | findMatch data pos => simp [Instr.isToken] at ht
  | compress data => simp [Instr.isToken] at ht
  | decompress bytes => simp [Instr.isToken] at ht

/-- Everything a step can be: reset, an idle core with or without a command, the start of the command taken, the search of
FIND_MATCH, a step of COMPRESS, or a step of DECOMPRESS. -/
theorem step_cases {s t : State} (h : step s = .next t) :
    (s.resetRequested = true ∧ t = takeReset s) ∨
    (s.resetRequested = false ∧
      ((s.activity = .idle ∧
          ((s.waiting = [] ∧ t = s) ∨ ∃ c rest, s.waiting = c :: rest ∧ t = accept c rest s)) ∨
        (∃ c, s.activity = .accepted c ∧ t = runCommand c s.asIdle) ∨
        (∃ f, s.activity = .finding f ∧ t = finish (.found (findLongestMatch f.input f.pos f.w)) s) ∨
        (∃ c, s.activity = .compressing c ∧ compressStep c s = .next t) ∨
        (∃ dec, s.activity = .decompressing dec ∧
          (t = finish (.bytes dec.out) s ∨ (∃ k, t = raise (.decodeTruncated k) s) ∨
            (∃ i, i.isToken = true ∧ exec i s = .next t) ∨
            (∃ cd rem, dec.fsm = .copy cd rem ∧ copyStep cd rem dec s = .next t))))) := by
  obtain ⟨r, hr⟩ : ∃ r, s.resetRequested = r := ⟨_, rfl⟩
  obtain ⟨a, ha⟩ : ∃ a, s.activity = a := ⟨_, rfl⟩
  cases r with
  | true =>
    rw [step_of_reset hr] at h
    cases h
    exact .inl ⟨hr, rfl⟩
  | false =>
    refine .inr ⟨hr, ?_⟩
    cases a with
    | idle =>
      refine .inl ⟨ha, ?_⟩
      obtain ⟨l, hw⟩ : ∃ l, s.waiting = l := ⟨_, rfl⟩
      cases l with
      | nil =>
        rw [step_of_idle hr ha hw] at h
        cases h
        exact .inl ⟨hw, rfl⟩
      | cons c rest =>
        rw [step_of_waiting hr ha hw] at h
        cases h
        exact .inr ⟨c, rest, hw, rfl⟩
    | accepted c =>
      rw [step_of_accepted hr ha] at h
      cases h
      exact .inr (.inl ⟨c, ha, rfl⟩)
    | finding f =>
      rw [step_of_finding hr ha] at h
      cases h
      exact .inr (.inr (.inl ⟨f, ha, rfl⟩))
    | compressing c =>
      rw [step_of_compressing hr ha] at h
      exact .inr (.inr (.inr (.inl ⟨c, ha, h⟩)))
    | decompressing d =>
      refine .inr (.inr (.inr (.inr ⟨d, ha, ?_⟩)))
      obtain ⟨_, _, e⟩ | ⟨k, e⟩ | ⟨i, hi, e⟩ | ⟨cd, rem, hf, e⟩ := step_of_decompressing hr ha <;> rw [e] at h
      · cases h; exact .inl rfl
      · cases h; exact .inr (.inl ⟨k, rfl⟩)
      · exact .inr (.inr (.inl ⟨i, hi, h⟩))
      · exact .inr (.inr (.inr ⟨cd, rem, hf, h⟩))

end Sys2Proof.Machine
end

