-- ==== Sys2Proof/Tests/Slice0.lean ====
section
/-! SUPPORT. The model's own tests, on values from spec/95_test_vectors.md or counted by hand, and for every obligation with
hypotheses a witness that meets them, clause by clause. -/

namespace Sys2Proof.Tests

open Sys2Proof Sys2Proof.Machine

/-- Bytes by their codes. -/
def codes (ns : List Nat) : Bytes := ns.map (BitVec.ofNat 8)

/-- The reset core with a command waiting. -/
def asked (c : Command) : State := { State.reset with waiting := [c] }

/-- The reset core inside DECOMPRESS. -/
def decoding (stream : Bytes) (rp : Nat) (fsm : Fsm) (out : Bytes) : State :=
  State.reset.putDecoder { stream := unpack stream, rp := rp, fsm := fsm, out := out }

/-- The reset core inside COMPRESS under window 20, at a cursor. -/
def encoding (data : Bytes) (cur : Nat) : State :=
  State.reset.putCompressor { input := data, w := 20, cur := cur, enc := [] }

/-- The reset core with a command taken and not started. -/
def taken (c : Command) : State := { State.reset with activity := .accepted c }

/-- The reset core inside FIND_MATCH. -/
def searching : State := State.reset.putSearch { input := codes [1], w := 20, pos := 0 }

/-- The core with capacities of `i` input, `m` stream and `o` output bytes. -/
def limited (i m o : Nat) (s : State) : State :=
  { s with params := { maxInputBytes := some i, maxStreamBytes := some m, maxOutputBytes := some o } }

/-- What the last step answered, if it gave a next state. -/
def answered : StepOutcome → List Response
  | .next t => t.responses
  | .fault _ => []
  | .refused _ => []

/-- The window after a step. -/
def windowOf : StepOutcome → Nat
  | .next t => t.windowSize
  | .fault _ => 0
  | .refused _ => 0

/-- What is running after a step. -/
def running : StepOutcome → Activity
  | .next t => t.activity
  | .fault _ => .idle
  | .refused _ => .idle

/-! ## Well-formedness: each check refuses an ill-formed term -/

theorem test_wellFormed_refuses_wide_distance : (Instr.matchTok 4096 2).wellFormed = false := by decide

theorem test_wellFormed_refuses_wide_length : (Instr.matchTok 1 16).wellFormed = false := by decide

theorem test_wellFormed_takes_full_fields : (Instr.matchTok 4095 15).wellFormed = true := by decide

theorem test_isToken_refuses_a_command : (Instr.configure 3).isToken = false := by decide

theorem test_canonical_refuses_each_bound :
    (Instr.matchTok 0 2).canonical 20 9 = false ∧ (Instr.matchTok 21 2).canonical 20 9 = false ∧
    (Instr.matchTok 1 1).canonical 20 9 = false ∧ (Instr.matchTok 1 10).canonical 20 9 = false ∧
    (Instr.matchTok 20 9).canonical 20 9 = true := by decide

theorem test_line_refuses_each_range :
    (Line.lit 256).wellFormed = false ∧ (Line.matchLine 4096 2).wellFormed = false ∧
    (Line.matchLine 1 16).wellFormed = false ∧ (Line.pad 8).wellFormed = false := by decide

theorem test_listing_refuses_pad_before_the_end :
    Line.listingWellFormed [.pad 1, .lit 0] = false ∧ Line.listingWellFormed [.lit 0, .pad 1] = true := by decide

/-! ## Decoding: words written out from the patterns `0BBBBBBBB` and `1DDDDDDDDDDDDLLLL` -/

/-- The layout of V-E03's first token: `0 01100001`. -/
theorem test_decode_lit_word : decodeTableWord 16 0b001100001 = some (.lit 0x61#8) := by decide

/-- V-T05: distance 400 is `000110010000`, length 15 is `1111`. -/
theorem test_decode_match_word : decodeTableWord 24 0b10001100100001111 = some (.matchTok 400 15) := by decide

/-- V-T04, sent first bit first: the flag, b1 = 0x00, b2 = 0x36. -/
theorem test_encode_match_word :
    encode (.matchTok 3 6) =
      some [true, false, false, false, false, false, false, false, false,
        false, false, true, true, false, true, true, false] := by decide

/-- A command has no word. -/
theorem test_command_has_no_word : decodeTableWord 0 0 = none ∧ encode (.compress []) = none := by decide

/-- V-D03 to V-D05: at most 8 bits are the end of the stream; V-D07: a flag 1 with 15 bits after it is cut off. -/
theorem test_decode_rejects_by_name :
    decode (codes [0x80]) = .reject (.endOfStream 8) ∧ decode (codes [0x80, 0x00]) = .reject (.truncatedMatch 15) := by
  decide

/-! ## The listing's text -/

/-- P3's listing, in both spellings, packs to `30 C0 08 80`. -/
theorem test_listing_p3 :
    (Listing.assembleText ["LIT 'a'".toList, "MATCH 2, 2".toList, "PAD 6".toList]).map pack =
      some (codes [0x30, 0xC0, 0x08, 0x80]) ∧
    (Listing.assembleText ["Literal(0x61)".toList, "Match(2, 2)".toList, "PAD 6".toList]).map pack =
      some (codes [0x30, 0xC0, 0x08, 0x80]) := by decide

theorem test_listing_refuses_ranges_and_spelling :
    Listing.assembleText ["LIT 0x100".toList] = none ∧ Listing.assembleText ["MATCH 4096, 2".toList] = none ∧
    Listing.assembleText ["LIT a".toList] = none := by decide

/-! ## The instructions -/

/-- V-D05b: `00 00` executes LIT 0x00 and leaves 7 bits. -/
theorem test_lit_from_its_flag :
    running (exec (.lit 0#8) (decoding (codes [0, 0]) 0 .readFlag [])) =
      .decompressing { stream := unpack (codes [0, 0]), rp := 9, fsm := .readFlag, out := [0#8] } := by decide

/-- V-K03's failing append, of a literal: a full OUT gives CAPACITY with the flag's offset. -/
theorem test_lit_at_a_full_history :
    answered (exec (.lit 1#8) (limited 9 9 1 (decoding (codes [0x30, 0x80, 0x80]) 9 .readFlag [0x61#8]))) =
      [.err (.capacity (.flagOffset 9))] := by decide

/-- V-D09: LIT a, then MATCH 2, 2 with one byte of output is DECODE_DISTANCE at offset 9. -/
theorem test_match_beyond_the_history :
    answered (step (decoding (codes [0x30, 0xC0, 0x08, 0x80]) 9 .readFlag [0x61#8])) =
      [.err (.decodeDistance 9 2 2)] := by decide

/-- V-D14: `d = len(OUT)` is legal; the copy's first byte comes from OUT[0]. -/
theorem test_match_whole_history_then_copy :
    running (step (decoding (codes [0x30, 0x98, 0xA0, 0x04, 0xA0]) 18 .readFlag (codes [0x61, 0x62]))) =
      .decompressing
        { stream := unpack (codes [0x30, 0x98, 0xA0, 0x04, 0xA0]), rp := 35, fsm := .copy 2 5,
          out := codes [0x61, 0x62] } ∧
    running (step (decoding (codes [0x30, 0x98, 0xA0, 0x04, 0xA0]) 35 (.copy 2 5) (codes [0x61, 0x62]))) =
      .decompressing
        { stream := unpack (codes [0x30, 0x98, 0xA0, 0x04, 0xA0]), rp := 35, fsm := .copy 2 4,
          out := codes [0x61, 0x62, 0x61] } := by decide

/-- V-C02. -/
theorem test_configure_accepts_400 :
    windowOf (exec (.configure 400) State.reset) = 400 ∧ answered (exec (.configure 400) State.reset) = [.ok .done] := by
  decide

/-- V-C03. -/
theorem test_configure_rejects_401 :
    windowOf (exec (.configure 401) State.reset) = 20 ∧
    answered (exec (.configure 401) State.reset) = [.err (.configError 401)] := by decide

/-- V-M07, as a command: of two distances with length 2 the smaller wins (C2). -/
theorem test_findMatch_tie :
    running (exec (.findMatch (codes [0x61, 0x62, 0x63, 0x61, 0x62, 0x64, 0x61, 0x62]) 6) State.reset) =
      .finding { input := codes [0x61, 0x62, 0x63, 0x61, 0x62, 0x64, 0x61, 0x62], w := 20, pos := 6 } ∧
    answered (step (State.reset.putSearch
      { input := codes [0x61, 0x62, 0x63, 0x61, 0x62, 0x64, 0x61, 0x62], w := 20, pos := 6 })) =
      [.ok (.found (some (3, 2)))] := by decide

/-- V-M16. -/
theorem test_findMatch_empty : answered (exec (.findMatch [] 0) State.reset) = [.err (.badArgument 0)] := by decide

/-- V-E03's second token: at cursor 1 of ten bytes `a` the step emits MATCH 1, 9. -/
theorem test_compress_step :
    running (step (encoding (List.replicate 10 0x61#8) 1)) =
      .compressing
        { input := List.replicate 10 0x61#8, w := 20, cur := 10,
          enc := [true, false, false, false, false, false, false, false, false,
            false, false, false, true, true, false, false, true] } := by decide

/-- V-K01. -/
theorem test_compress_capacity :
    answered (exec (.compress (codes [0x61, 0x62, 0x63, 0x61, 0x62])) (limited 4 9 9 State.reset)) =
      [.err (.capacity (.length 5))] := by decide

/-- V-K04. -/
theorem test_decompress_capacity :
    answered (exec (.decompress (codes [0x30, 0xC0, 0x06, 0x40])) (limited 9 3 9 State.reset)) =
      [.err (.capacity (.length 4))] := by decide

/-- V-D04b: a single byte ends the stream at once. -/
theorem test_decompress_of_one_byte_ends :
    running (exec (.decompress (codes [0xFF])) State.reset) =
      .decompressing { stream := List.replicate 8 true, rp := 0, fsm := .readFlag, out := [] } ∧
    answered (step (decoding (codes [0xFF]) 0 .readFlag [])) = [.ok (.bytes [])] := by decide

/-- V-E01 and V-E02b: the bytes of COMPRESS under windows 20 and 2. -/
theorem test_compressBytes :
    compressBytes 20 (codes [0x61, 0x62, 0x63, 0x61, 0x62, 0x63, 0x61, 0x62, 0x63]) =
      codes [0x30, 0x98, 0x8C, 0x70, 0x03, 0x60] ∧
    compressBytes 2 (codes [0x61, 0x62, 0x63, 0x61, 0x62, 0x63, 0x61, 0x62, 0x63]) =
      codes [0x30, 0x98, 0x8C, 0x66, 0x13, 0x11, 0x8C, 0xC2, 0x62, 0x31, 0x80] := by decide

/-- The codes of R300. -/
theorem test_error_codes :
    (Error.configError 0).code = 1 ∧ (Error.decodeDistance 0 0 0).code = 2 ∧ (Error.decodeTruncated 0).code = 3 ∧
    (Error.capacity (.length 0)).code = 4 ∧ (Error.badArgument 0).code = 5 ∧ (Error.ioError [] .read).code = 6 := by
  decide

/-- The host's question of a table word: placed after reset, the next step runs it (LIT appends; MATCH finds OUT empty). -/
theorem test_placed_words_run :
    running (step (State.reset.withFetchWord 16 0x41)) =
      .decompressing { stream := unpack (codes [0x20, 0x80]), rp := 9, fsm := .readFlag, out := [0x41#8] } ∧
    answered (step (State.reset.withFetchWord 24 0x10012)) = [.err (.decodeDistance 0 1 2)] := by decide

/-! ## Witnesses: a concrete state and operands that meet an obligation's hypotheses, at the bounds of each clause -/

/-- DECOMPRESS of V-E03's stream in the middle of its copy: 9 bytes still to copy, one byte of output. -/
def copying : State := decoding (codes [0x30, 0xC0, 0x06, 0x40]) 26 (.copy 1 9) [0x61#8]

/-- What `copying` is after one step. -/
def copyingNext : State := decoding (codes [0x30, 0xC0, 0x06, 0x40]) 26 (.copy 1 8) (codes [0x61, 0x61])

theorem copying_inv : State.Inv copying := ⟨by decide, by decide⟩

theorem copying_step : step copying = .next copyingNext := rfl

theorem witness_EveryStepKeepsTheInvariant : State.Inv copying ∧ step copying = .next copyingNext :=
  ⟨copying_inv, copying_step⟩

theorem witness_NoStepStopsInsideTheInvariant : State.Inv copying ∧ State.Inv State.reset :=
  ⟨copying_inv, ⟨by decide, memory_wf_reset⟩⟩

/-- With a command of each kind in flight: DECOMPRESS, CONFIGURE just taken, FIND_MATCH searching, COMPRESS. -/
theorem witness_ResetRequestAbandonsTheCommand :
    ({ copying with resetRequested := true } : State).resetRequested = true ∧
    ({ taken (.configure 3) with resetRequested := true } : State).resetRequested = true ∧
    ({ searching with resetRequested := true } : State).resetRequested = true ∧
    ({ encoding (codes [1]) 0 with resetRequested := true } : State).resetRequested = true := ⟨rfl, rfl, rfl, rfl⟩

/-- R341: a CONFIGURE that the core has taken is abandoned: its window is not written and nothing is answered. -/
theorem test_reset_abandons_configure :
    step { taken (.configure 3) with cfg := 7#9, resetRequested := true } = .next State.reset := rfl

/-- R341: a FIND_MATCH that searches is abandoned. -/
theorem test_reset_abandons_findMatch :
    step { searching with resetRequested := true } = .next State.reset := rfl

theorem witness_IdleStepRunsTheWaitingCommand :
    (asked (.configure 3)).resetRequested = false ∧ (asked (.configure 3)).activity = .idle ∧
    (asked (.configure 3)).waiting = .configure 3 :: [] ∧
    (taken (.configure 3)).resetRequested = false ∧ (taken (.configure 3)).activity = .accepted (.configure 3) ∧
    State.reset.activity = .idle ∧ State.reset.waiting = [] := by
  decide

/-- Exactly 9 bits at ReadFlag, exactly 8 at ReadLiteral, exactly 16 and exactly 15 at ReadMatch. -/
theorem witness_TokenStepRunsTheDecodedToken :
    (decodeToken ((unpack (codes [0x80, 0x41])).drop 7) = .token (.lit 0x41#8) [] ∧
      (decoding (codes [0x80, 0x41]) 7 .readFlag []).activity =
        .decompressing { stream := unpack (codes [0x80, 0x41]), rp := 7, fsm := .readFlag, out := [] }) ∧
    (decoding (codes [0x80, 0x41]) 8 .readLiteral []).activity =
      .decompressing { stream := unpack (codes [0x80, 0x41]), rp := 8, fsm := .readLiteral, out := [] } ∧
    (8 + 16 ≤ (unpack (codes [0x80, 0x00, 0x12])).length ∧
      (decoding (codes [0x80, 0x00, 0x12]) 8 .readMatch []).activity =
        .decompressing { stream := unpack (codes [0x80, 0x00, 0x12]), rp := 8, fsm := .readMatch, out := [] }) ∧
    ((unpack (codes [0x80, 0x00])).length < 1 + 16 ∧
      (decoding (codes [0x80, 0x00]) 1 .readMatch []).activity =
        .decompressing { stream := unpack (codes [0x80, 0x00]), rp := 1, fsm := .readMatch, out := [] }) := by
  decide

theorem witness_PlacedWordIsExecutedNext :
    decodeTableWord 16 0xFF = some (.lit 0xFF#8) ∧ decodeTableWord 24 0x1FFFF = some (.matchTok 4095 15) := by decide

/-- A step with a response and one without. -/
theorem witness_StepGivesAtMostOneResponse :
    (step (taken (.configure 400)) =
      .next { State.reset with cfg := 400#9, responses := [.ok .done] }) ∧ step copying = .next copyingNext :=
  ⟨rfl, rfl⟩

theorem witness_ErrorResponseDiscardsTheCommand :
    step (decoding (codes [0xFF, 0xFF]) 0 .readFlag []) =
      .next { State.reset with responses := [.err (.decodeTruncated 0)] } := rfl

theorem witness_CoreNeverAnswersIoError : step copying = .next copyingNext := copying_step

theorem witness_EarlierResponsesAreNeverRead : step copying = .next copyingNext := copying_step

/-- Both ways in which CFG changes: reset from window 3, and CONFIGURE(1) and CONFIGURE(400). -/
theorem witness_OnlyConfigureAndResetWriteTheWindow :
    (step { State.reset with cfg := 3#9, resetRequested := true } = .next { State.reset with cfg := 20#9 } ∧
      (20#9 : BitVec 9) ≠ 3#9) ∧
    (step (taken (.configure 1)) = .next { State.reset with cfg := 1#9, responses := [.ok .done] } ∧
      (1#9 : BitVec 9) ≠ 20#9) ∧
    (step (taken (.configure 400)) = .next { State.reset with cfg := 400#9, responses := [.ok .done] } ∧
      (400#9 : BitVec 9) ≠ 20#9) :=
  ⟨⟨rfl, by decide⟩, ⟨rfl, by decide⟩, ⟨rfl, by decide⟩⟩

/-- DECOMPRESS in its copy, and a FIND_MATCH that was taken: neither is a CONFIGURE. -/
theorem witness_BusyCoreTakesNoOtherCommand :
    copying.activity ≠ .idle ∧ copying.resetRequested = false ∧ step copying = .next copyingNext ∧
    (∀ w, copying.activity ≠ .accepted (.configure w)) ∧
    (taken (.findMatch [] 0)).activity ≠ .idle ∧
    step (taken (.findMatch [] 0)) = .next { State.reset with responses := [.err (.badArgument 0)] } ∧
    (∀ w, (taken (.findMatch [] 0)).activity ≠ .accepted (.configure w)) :=
  ⟨by decide, rfl, rfl, fun _ h => (by cases h), by decide, rfl, fun _ h => (by cases h)⟩

theorem witness_EveryCommandEndsInItsOneResponse :
    (asked (.compress [])).resetRequested = false ∧ (asked (.compress [])).activity = .idle ∧
    (asked (.compress [])).waiting = .compress [] :: [] := by decide

/-- The reset core is idle; 1 and 400 are legal, 0 and 401 are not. -/
theorem witness_ConfigureWritesOnlyALegalWindow :
    State.reset.activity = .idle ∧ ((1 ≤ 1 ∧ 1 ≤ 400) ∧ (1 ≤ 400 ∧ 400 ≤ 400)) ∧ ((0 = 0 ∨ 400 < 0) ∧ (401 = 0 ∨ 400 < 401)) := by
  decide

/-- Three bytes against a capacity of 2 and of 3; position 3 and position 2. -/
theorem witness_FindMatchAnswersTheFinder :
    (limited 2 9 9 State.reset).activity = .idle ∧
    ((limited 2 9 9 State.reset).params.maxInputBytes = some 2 ∧ 2 < (codes [1, 2, 3]).length) ∧
    (∀ m, (limited 3 9 9 State.reset).params.maxInputBytes = some m → (codes [1, 2, 3]).length ≤ m) ∧
    (codes [1, 2, 3]).length ≤ 3 ∧ 2 < (codes [1, 2, 3]).length ∧ (limited 3 9 9 State.reset).resetRequested = false :=
  ⟨rfl, ⟨rfl, by decide⟩, fun m h => by cases h; decide, by decide, by decide, rfl⟩

/-- Three bytes against a capacity of 2 and of 3, and against none. -/
theorem witness_CompressRunsToItsResponse :
    (limited 2 9 9 State.reset).activity = .idle ∧
    ((limited 2 9 9 State.reset).params.maxInputBytes = some 2 ∧ 2 < (codes [1, 2, 3]).length) ∧
    ((∀ m, (limited 3 9 9 State.reset).params.maxInputBytes = some m → (codes [1, 2, 3]).length ≤ m) ∧
      (limited 3 9 9 State.reset).resetRequested = false) ∧
    (∀ m, State.reset.params.maxInputBytes = some m → (codes [1, 2, 3]).length ≤ m) :=
  ⟨rfl, ⟨rfl, by decide⟩, ⟨fun m h => by cases h; decide, rfl⟩, fun m h => by cases h⟩

/-- Three bytes against a capacity of 2 and of 3, and against none. -/
theorem witness_DecompressRunsToItsResponse :
    (limited 9 2 9 State.reset).activity = .idle ∧
    ((limited 9 2 9 State.reset).params.maxStreamBytes = some 2 ∧ 2 < (codes [1, 2, 3]).length) ∧
    ((∀ m, (limited 9 3 9 State.reset).params.maxStreamBytes = some m → (codes [1, 2, 3]).length ≤ m) ∧
      (limited 9 3 9 State.reset).resetRequested = false) ∧
    (∀ m, State.reset.params.maxStreamBytes = some m → (codes [1, 2, 3]).length ≤ m) :=
  ⟨rfl, ⟨rfl, by decide⟩, ⟨fun m h => by cases h; decide, rfl⟩, fun m h => by cases h⟩

/-- An idle core without limits and one whose capacity of 2 refuses three bytes. -/
theorem witness_CommandsLeaveTheRestAlone :
    State.reset.activity = .idle ∧ (limited 2 9 9 State.reset).activity = .idle := ⟨rfl, rfl⟩

/-- COMPRESS and DECOMPRESS start with the values of R44's column "value at command start". -/
theorem test_commands_start :
    running (exec (.compress (codes [1])) State.reset) =
      .compressing { input := codes [1], w := 20, cur := 0, enc := [] } ∧
    running (exec (.decompress (codes [0x80])) State.reset) =
      .decompressing
        { stream := [true, false, false, false, false, false, false, false], rp := 0, fsm := .readFlag, out := [] } := by
  decide

/-- V-M07 has a result among several candidates; V-M03, on the last byte, has none. -/
theorem witness_FinderSelectsTheLongestThenTheNearest :
    (6 < (codes [0x61, 0x62, 0x63, 0x61, 0x62, 0x64, 0x61, 0x62]).length ∧
      findLongestMatch (codes [0x61, 0x62, 0x63, 0x61, 0x62, 0x64, 0x61, 0x62]) 6 20 = some (3, 2) ∧
      Candidate (codes [0x61, 0x62, 0x63, 0x61, 0x62, 0x64, 0x61, 0x62]) 6 20 6 2) ∧
    (3 < (codes [0x61, 0x62, 0x63, 0x61]).length ∧ findLongestMatch (codes [0x61, 0x62, 0x63, 0x61]) 3 20 = none) := by
  decide

/-- V-M06: the cap of 15, at the distance 1 and at position 1. -/
theorem witness_RunCountIsTheLongestTiledMatch :
    1 ≤ 1 ∧ 1 ≤ 1 ∧ 1 < (List.replicate 20 0x61#8).length ∧ 15 ≤ min 15 ((List.replicate 20 0x61#8).length - 1) ∧
    TiledMatch (List.replicate 20 0x61#8) 1 1 15 := by decide

/-- V-M05: a match that overlaps itself, in both forms. -/
theorem witness_TiledMatchIsCopyForward :
    1 ≤ 1 ∧ 1 ≤ 1 ∧ TiledMatch (List.replicate 10 0x61#8) 1 1 9 ∧
    ∀ k, k < 9 → (List.replicate 10 0x61#8)[1 + k]? = (List.replicate 10 0x61#8)[1 + k - 1]? := by decide

/-- Two inputs that differ only before the window, at position 2 under window 1. -/
theorem witness_FinderReadsOnlyItsWindow :
    (codes [0, 5, 5, 5]).length = (codes [9, 5, 5, 5]).length ∧ 2 < (codes [0, 5, 5, 5]).length ∧
    (∀ a, 2 - min 1 2 ≤ a → a < 2 + min 15 ((codes [0, 5, 5, 5]).length - 2) →
      (codes [0, 5, 5, 5])[a]? = (codes [9, 5, 5, 5])[a]?) ∧
    codes [0, 5, 5, 5] ≠ codes [9, 5, 5, 5] := by
  refine ⟨rfl, by decide, fun a h1 h2 => ?_, by decide⟩
  have h2' : a < 4 := h2
  have h1' : 1 ≤ a := h1
  interval_cases a <;> rfl

/-- V-M03's last byte; V-M04 under window 1; a run from position 1 with two bytes left. -/
theorem witness_FinderCornerCases :
    3 + 1 = (codes [0x61, 0x62, 0x63, 0x61]).length ∧
    findLongestMatch (codes [0x61, 0x61, 0x61]) 1 1 = some (1, 2) ∧ (1 ≤ 1 ∧ 1 + 2 ≤ 3 ∧ 1 ≤ 1) := by decide

/-- V-E03 at cursor 1 finds a match; at cursor 0 there is none and IN has a byte. -/
theorem witness_EncoderStepEmitsTheFinderResult :
    (encoding (List.replicate 10 0x61#8) 1).resetRequested = false ∧
    (encoding (List.replicate 10 0x61#8) 1).activity =
      .compressing { input := List.replicate 10 0x61#8, w := 20, cur := 1, enc := [] } ∧
    1 < (List.replicate 10 0x61#8).length ∧ findLongestMatch (List.replicate 10 0x61#8) 1 20 = some (1, 9) ∧
    findLongestMatch (List.replicate 10 0x61#8) 0 20 = none ∧ (List.replicate 10 0x61#8)[0]? = some 0x61#8 := by decide

/-- A step inside IN and the step at its end. -/
theorem witness_EncoderStepKeepsInputAndWindow :
    (encoding (codes [7]) 0).resetRequested = false ∧
    step (encoding (codes [7]) 0) =
      .next (State.reset.putCompressor
        { input := codes [7], w := 20, cur := 1,
          enc := [false, false, false, false, false, false, true, true, true] }) ∧
    step (encoding (codes [7]) 1) = .next { State.reset with responses := [.ok (.bytes [])] } :=
  ⟨rfl, rfl, rfl⟩

/-- A LIT and a MATCH with one bit more than they need. -/
theorem witness_EncodeOfDecodeIsTheBits :
    (decodeToken (List.replicate 10 false) = .token (.lit 0#8) [false] ∧ (List.replicate 10 false).head? = some false) ∧
    (decodeToken (List.replicate 18 true) = .token (.matchTok 4095 15) [true] ∧
      (List.replicate 18 true).head? = some true) := by decide

/-- The empty sequence and one byte; the first and the last bit of two bytes. -/
theorem witness_PackAndUnpackAreInverse :
    ([] : Bits).length % 8 = 0 ∧ (List.replicate 8 true).length % 8 = 0 ∧ 0 < 8 * (codes [1, 2]).length ∧
    15 < 8 * (codes [1, 2]).length := by decide

/-- Eight bytes of input against nine of stream, the least that fits. -/
theorem witness_FittingCapacitiesTakeEveryOutputBack :
    consistentCapacities { maxInputBytes := some 8, maxStreamBytes := some 9, maxOutputBytes := none } = true ∧
    consistentCapacities { maxInputBytes := some 8, maxStreamBytes := some 8, maxOutputBytes := none } = false ∧
    (codes [1, 2, 3, 4, 5, 6, 7, 8]).length ≤ 8 := by decide

/-- The first and the last token of V-E03. -/
theorem witness_EmittedTokensAreCanonical :
    parse 20 (List.replicate 10 0x61#8) = [] ++ .lit 0x61#8 :: [.matchTok 1 9] ∧
    parse 20 (List.replicate 10 0x61#8) = [.lit 0x61#8] ++ .matchTok 1 9 :: [] := by decide

/-- Three different bytes: no two positions have the same two bytes. -/
theorem witness_NoRepetitionGivesOneLiteralAByte :
    ∀ p q, p < q → q + 1 < (codes [1, 2, 3]).length →
      ¬ ((codes [1, 2, 3])[p]? = (codes [1, 2, 3])[q]? ∧ (codes [1, 2, 3])[p + 1]? = (codes [1, 2, 3])[q + 1]?) := by
  intro p q h1 h2
  have h2' : q + 1 < 3 := h2
  have hq : q = 1 := by omega
  have hp : p = 0 := by omega
  subst hq
  subst hp
  decide

theorem witness_MatchFieldsAreAssembledFromTwoBytes : (0 < 256 ∧ 0 < 256) ∧ (255 < 256 ∧ 255 < 256) := by decide

theorem witness_TableWordsHoldTheFields : 0 < 256 ∧ 255 < 256 ∧ (0 < 4096 ∧ 0 < 16) ∧ (4095 < 4096 ∧ 15 < 16) := by decide

theorem witness_DecodeOfEncodeIsTheToken :
    (Instr.lit 0xFF#8).isToken = true ∧ (Instr.lit 0xFF#8).wellFormed = true ∧
    (Instr.matchTok 0 0).isToken = true ∧ (Instr.matchTok 0 0).wellFormed = true ∧
    (Instr.matchTok 4095 15).isToken = true ∧ (Instr.matchTok 4095 15).wellFormed = true := by decide

/-- Eight bits, and a flag 1 with 8 and with 15 bits after it. -/
theorem witness_DecoderRefusesOnlyShortStreams :
    (List.replicate 8 true).length < 9 ∧ (List.replicate 9 true = true :: List.replicate 8 true) ∧
    (List.replicate 16 true = true :: List.replicate 15 true) := by decide

/-- Every line form at its bounds: without a PAD, with the longest PAD, a PAD alone, and no line. -/
theorem witness_AssemblerAcceptsWellFormedListings :
    Line.listingWellFormed [.lit 0, .matchLine 4095 15, .lit 255, .matchLine 0 0] = true ∧
    Line.listingWellFormed [.matchLine 1 2, .lit 65, .pad 7] = true ∧ Line.listingWellFormed [.pad 0] = true ∧
    Line.listingWellFormed [] = true ∧ 0 < 256 ∧ 255 < 256 := by decide

/-- A LIT line alone: `LIT 0x41` is `0 01000001` (R102). -/
theorem test_listing_of_a_lit :
    assemble [.lit 0x41] = some [false, false, true, false, false, false, false, false, true] := by decide

/-- Eight and no bits left; a flag 1 with 8 and with 15 bits after it. -/
theorem witness_ShortRemainderEndsOrTruncatesTheStream :
    (decoding (codes [0xFF, 0xFF]) 8 .readFlag []).resetRequested = false ∧
    (decoding (codes [0xFF, 0xFF]) 8 .readFlag []).activity =
      .decompressing { stream := unpack (codes [0xFF, 0xFF]), rp := 8, fsm := .readFlag, out := [] } ∧
    ((unpack (codes [0xFF, 0xFF])).length - 8 < 9 ∧ (unpack (codes [0xFF, 0xFF])).length - 16 < 9) ∧
    ((unpack (codes [0xFF, 0xFF]))[7]? = some true ∧ 7 + 9 ≤ (unpack (codes [0xFF, 0xFF])).length ∧
      (unpack (codes [0xFF, 0xFF])).length < 7 + 17) ∧
    ((unpack (codes [0xFF, 0xFF]))[0]? = some true ∧ 0 + 9 ≤ (unpack (codes [0xFF, 0xFF])).length ∧
      (unpack (codes [0xFF, 0xFF])).length < 0 + 17) := by decide

/-- The last 8 bits of a stream at ReadLiteral; OUT with room for one byte, and full. -/
theorem witness_LitAppendsItsByte :
    (decoding (codes [0x00, 0x41]) 8 .readLiteral []).activity =
      .decompressing { stream := unpack (codes [0x00, 0x41]), rp := 8, fsm := .readLiteral, out := [] } ∧
    8 + 8 ≤ (unpack (codes [0x00, 0x41])).length ∧
    (∀ m, (limited 9 9 1 (decoding (codes [0x00, 0x41]) 8 .readLiteral [])).params.maxOutputBytes = some m → 0 + 1 ≤ m) ∧
    ((limited 9 9 0 (decoding (codes [0x00, 0x41]) 8 .readLiteral [])).params.maxOutputBytes = some 0 ∧ 0 < 0 + 1) :=
  ⟨rfl, by decide, fun m h => by cases h; decide, rfl, by decide⟩

/-- The last 9 bits of a stream at ReadFlag; OUT with room for one byte, and full. -/
theorem witness_LitFromItsFlag :
    (decoding (codes [0x00, 0x41]) 7 .readFlag []).activity =
      .decompressing { stream := unpack (codes [0x00, 0x41]), rp := 7, fsm := .readFlag, out := [] } ∧
    7 + 9 ≤ (unpack (codes [0x00, 0x41])).length ∧
    (∀ m, (limited 9 9 1 (decoding (codes [0x00, 0x41]) 7 .readFlag [])).params.maxOutputBytes = some m → 0 + 1 ≤ m) ∧
    ((limited 9 9 0 (decoding (codes [0x00, 0x41]) 7 .readFlag [])).params.maxOutputBytes = some 0 ∧ 0 < 0 + 1) :=
  ⟨rfl, by decide, fun m h => by cases h; decide, rfl, by decide⟩

/-- Too few bits: at a flag with 9 and with 16 bits from it (p = 8 with 8 left, p = 1 with 15 left), and at ReadMatch with 15
left. Exactly 16 bits, at a flag and at ReadMatch, with the distances 0, 2 and 1 for one byte of OUT. -/
theorem witness_MatchChecksThenStartsItsCopy :
    ((decoding (codes [0x01, 0x80]) 7 .readFlag []).activity =
        .decompressing { stream := unpack (codes [0x01, 0x80]), rp := 7, fsm := .readFlag, out := [] } ∧
      8 = 7 + 1 ∧ 7 + 9 ≤ (unpack (codes [0x01, 0x80])).length ∧ (unpack (codes [0x01, 0x80])).length - 8 < 16) ∧
    ((decoding (codes [0x80, 0x00]) 0 .readFlag []).activity =
        .decompressing { stream := unpack (codes [0x80, 0x00]), rp := 0, fsm := .readFlag, out := [] } ∧
      1 = 0 + 1 ∧ 0 + 9 ≤ (unpack (codes [0x80, 0x00])).length ∧ (unpack (codes [0x80, 0x00])).length - 1 < 16) ∧
    ((decoding (codes [0x80, 0x00]) 1 .readMatch []).activity =
        .decompressing { stream := unpack (codes [0x80, 0x00]), rp := 1, fsm := .readMatch, out := [] } ∧
      (unpack (codes [0x80, 0x00])).length - 1 < 16) ∧
    ((decoding (codes [0x01, 0x00, 0x12]) 7 .readFlag (codes [1])).activity =
        .decompressing { stream := unpack (codes [0x01, 0x00, 0x12]), rp := 7, fsm := .readFlag, out := codes [1] } ∧
      8 = 7 + 1 ∧ 7 + 9 ≤ (unpack (codes [0x01, 0x00, 0x12])).length ∧
      16 ≤ (unpack (codes [0x01, 0x00, 0x12])).length - 8) ∧
    ((decoding (codes [0x01, 0x00, 0x12]) 8 .readMatch (codes [1])).activity =
        .decompressing { stream := unpack (codes [0x01, 0x00, 0x12]), rp := 8, fsm := .readMatch, out := codes [1] } ∧
      16 ≤ (unpack (codes [0x01, 0x00, 0x12])).length - 8) ∧
    ((0 = 0 ∨ (codes [1]).length < 0) ∧ (2 = 0 ∨ (codes [1]).length < 2)) ∧ (1 ≤ 1 ∧ 1 ≤ (codes [1]).length) := by
  decide

/-- A MATCH 1, 15 with the last 17 bits of a stream and room for exactly its 15 bytes. -/
theorem witness_MatchRunsItsWholeCopy :
    (decoding (codes [0x80, 0x00, 0x1F]) 7 .readFlag (codes [1])).resetRequested = false ∧
    (decoding (codes [0x80, 0x00, 0x1F]) 7 .readFlag (codes [1])).activity =
      .decompressing { stream := unpack (codes [0x80, 0x00, 0x1F]), rp := 7, fsm := .readFlag, out := codes [1] } ∧
    16 ≤ (unpack (codes [0x80, 0x00, 0x1F])).length - 8 ∧ (1 ≤ 1 ∧ 1 ≤ (codes [1]).length) ∧
    (∀ m, (limited 9 9 16 (decoding (codes [0x80, 0x00, 0x1F]) 7 .readFlag (codes [1]))).params.maxOutputBytes = some m →
      (codes [1]).length + 15 ≤ m) :=
  ⟨rfl, rfl, by decide, by decide, fun m h => by cases h; decide⟩

/-- The last byte of a copy (COPY_REM 1) and one before it, at `d = len(OUT)`; OUT with room for one byte, and full. -/
theorem witness_CopyStepAppendsOneByteFromBehind :
    copying.resetRequested = false ∧
    copying.activity =
      .decompressing
        { stream := unpack (codes [0x30, 0xC0, 0x06, 0x40]), rp := 26, fsm := .copy 1 (8 + 1), out := [0x61#8] } ∧
    (1 ≤ 1 ∧ 1 ≤ [0x61#8].length) ∧ [0x61#8][[0x61#8].length - 1]? = some 0x61#8 ∧
    (∀ m, (limited 9 9 2 copying).params.maxOutputBytes = some m → [0x61#8].length + 1 ≤ m) ∧
    ((limited 9 9 1 copying).params.maxOutputBytes = some 1 ∧ 1 < [0x61#8].length + 1) :=
  ⟨rfl, rfl, by decide, rfl, fun m h => by cases h; decide, rfl, by decide⟩

/-- A LIT and a MATCH that are executed, and one that ends the command. -/
theorem witness_TokensOnlyAppendToTheHistory :
    (Instr.lit 0x41#8).isToken = true ∧ (Instr.matchTok 1 2).isToken = true ∧
    exec (.lit 0x41#8) (decoding (codes [0x20, 0x80]) 0 .readFlag []) =
      .next (decoding (codes [0x20, 0x80]) 9 .readFlag [0x41#8]) ∧
    exec (.matchTok 1 2) (decoding (codes [0x80, 0x00, 0x12]) 8 .readMatch (codes [1])) =
      .next (decoding (codes [0x80, 0x00, 0x12]) 24 (.copy 1 2) (codes [1])) ∧
    exec (.matchTok 1 2) (decoding (codes [0x80, 0x00, 0x12]) 8 .readMatch []) =
      .next { State.reset with responses := [.err (.decodeDistance 7 1 2)] } :=
  ⟨rfl, rfl, rfl, rfl, rfl⟩

theorem witness_HistoryIsAppendOnly :
    step copying = .next copyingNext ∧
    copying.activity =
      .decompressing { stream := unpack (codes [0x30, 0xC0, 0x06, 0x40]), rp := 26, fsm := .copy 1 9, out := [0x61#8] } ∧
    copyingNext.activity =
      .decompressing
        { stream := unpack (codes [0x30, 0xC0, 0x06, 0x40]), rp := 26, fsm := .copy 1 8, out := codes [0x61, 0x61] } :=
  ⟨rfl, rfl, rfl⟩

/-- The longest distance, 4095, with an OUT of as many bytes. -/
theorem witness_DecoderIgnoresTheWindow :
    copying.resetRequested = false ∧ step copying = .next copyingNext ∧
    (decoding (codes [0x80, 0xFF, 0xFF]) 8 .readMatch (List.replicate 4095 0#8)).activity =
      .decompressing
        { stream := unpack (codes [0x80, 0xFF, 0xFF]), rp := 8, fsm := .readMatch, out := List.replicate 4095 0#8 } ∧
    16 ≤ (unpack (codes [0x80, 0xFF, 0xFF])).length - 8 ∧
    (1 ≤ 4095 ∧ 4095 ≤ 4095 ∧ 4095 ≤ (List.replicate 4095 0#8).length) :=
  ⟨rfl, rfl, rfl, by decide, by decide, le_rfl, by rw [List.length_replicate]⟩

/-- An idle core, and the states of a running DECOMPRESS in which each token has no place, ReadFlag with 8 bits left among
them. -/
theorem witness_TokenOutsideItsStateIsRefused :
    (∀ dec, State.reset.activity ≠ .decompressing dec) ∧
    (decoding (codes [0x80]) 1 .readMatch []).activity =
      .decompressing { stream := unpack (codes [0x80]), rp := 1, fsm := .readMatch, out := [] } ∧
    (decoding (codes [0x80]) 1 .readLiteral []).activity =
      .decompressing { stream := unpack (codes [0x80]), rp := 1, fsm := .readLiteral, out := [] } ∧
    copying.activity =
      .decompressing
        { stream := unpack (codes [0x30, 0xC0, 0x06, 0x40]), rp := 26, fsm := .copy 1 9, out := [0x61#8] } ∧
    ((decoding (codes [0xFF]) 0 .readFlag []).activity =
        .decompressing { stream := unpack (codes [0xFF]), rp := 0, fsm := .readFlag, out := [] } ∧
      (unpack (codes [0xFF])).length < 0 + 9) :=
  ⟨fun dec h => (by cases h), rfl, rfl, rfl, rfl, by decide⟩

/-- V-D14's copy, with room for its five bytes and for four. -/
theorem witness_MatchCopyTilesTheHistory :
    (1 ≤ 2 ∧ 2 ≤ (codes [0x61, 0x62]).length) ∧
    (∀ m, (Params.mk none none (some 7)).maxOutputBytes = some m → (codes [0x61, 0x62]).length + 5 ≤ m) ∧
    ((Params.mk none none (some 6)).maxOutputBytes = some 6 ∧ (codes [0x61, 0x62]).length ≤ 6 ∧
      6 < (codes [0x61, 0x62]).length + 5) ∧ 2 ≤ 2 ∧ 2 < 5 :=
  ⟨by decide, fun m h => by cases h; decide, by decide, le_rfl, by decide⟩

/-- V-E03's tokens and a tail of 8 bits, the longest that is discarded. -/
theorem witness_DecoderReplaysTheTokensAndDropsTheTail :
    (∀ i ∈ [Instr.lit 0x61#8, .matchTok 1 9], i.wellFormed = true) ∧
    encodeTokens [Instr.lit 0x61#8, .matchTok 1 9] =
      some [false, false, true, true, false, false, false, false, true,
        true, false, false, false, false, false, false, false, false, false, false, false, true, true, false, false, true] ∧
    (List.replicate 8 true).length < 9 := by decide

/-- The smallest and the largest window, and an OUT that holds the input and no more. -/
theorem witness_DecompressOfCompressIsTheInput :
    (1 ≤ 1 ∧ 1 ≤ 400) ∧ (1 ≤ 400 ∧ 400 ≤ 400) ∧
    (∀ m, (Params.mk none none (some 3)).maxOutputBytes = some m → (codes [1, 1, 1]).length ≤ m) :=
  ⟨by decide, by decide, fun m h => by cases h; decide⟩

/-- Three bytes with capacities of 3 input, 4 stream and 3 output bytes, the least that hold them. -/
theorem witness_CommandsRoundTrip :
    let s := limited 3 4 3
      { State.reset with waiting := [.compress (codes [1, 1, 1]), .decompress (compressBytes 20 (codes [1, 1, 1]))] }
    s.resetRequested = false ∧ s.activity = .idle ∧ 1 ≤ s.windowSize ∧ s.windowSize ≤ 400 ∧
    (∀ m, s.params.maxInputBytes = some m → (codes [1, 1, 1]).length ≤ m) ∧
    (∀ m, s.params.maxStreamBytes = some m → (9 * (codes [1, 1, 1]).length + 7) / 8 ≤ m) ∧
    (∀ m, s.params.maxOutputBytes = some m → (codes [1, 1, 1]).length ≤ m) ∧
    s.waiting = .compress (codes [1, 1, 1]) :: .decompress (compressBytes s.windowSize (codes [1, 1, 1])) :: [] :=
  ⟨rfl, rfl, by decide, by decide, fun m h => by cases h; decide, fun m h => by cases h; decide,
    fun m h => by cases h; decide, rfl⟩

/-! ## The adapter's witnesses -/

/-- A file named 1 with three bytes, and a file named 2 that cannot be written. -/
def files : Files := { contents := [(codes [1], codes [7, 7, 7])], unreadable := [], unwritable := [codes [2]] }

/-- The adapter at rest with one call to make, around the reset core. -/
def calling (c : Call) : System :=
  { adapter := { calls := [c], phase := .ready, files := files, results := [] }, core := State.reset }

theorem witness_AdapterRejectsTheWindowBeforeAnyFile :
    (calling (.compress (codes [1]) (codes [3]) (some 401))).adapter.phase = .ready ∧
    (calling (.compress (codes [1]) (codes [3]) (some 401))).core.free = true ∧
    (calling (.compress (codes [1]) (codes [3]) (some 401))).adapter.calls = [.compress (codes [1]) (codes [3]) (some 401)] ∧
    ((401 = 0 ∨ 400 < 401) ∧ (0 = 0 ∨ 400 < 0)) := by decide

theorem witness_AdapterCompressesAFile :
    (calling (.compress (codes [1]) (codes [3]) (some 400))).adapter.phase = .ready ∧
    (calling (.compress (codes [1]) (codes [3]) (some 400))).core.free = true ∧
    (1 ≤ 400 ∧ 400 ≤ 400) ∧ files.read (codes [1]) = some (codes [7, 7, 7]) ∧
    (∀ m, (calling (.compress (codes [1]) (codes [3]) (some 400))).core.params.maxInputBytes = some m →
      (codes [7, 7, 7]).length ≤ m) ∧
    files.write (codes [3]) (compressBytes 400 (codes [7, 7, 7])) =
      some { files with contents := (codes [3], compressBytes 400 (codes [7, 7, 7])) :: files.contents } :=
  ⟨rfl, by decide, by decide, by decide, fun m h => (by cases h), by decide⟩

/-- File 4 does not exist; file 1 holds 24 bits, a LIT and 15 bits after it that begin with a flag 1 at offset 9. -/
theorem witness_AdapterReportsReadFailureAndDecodeErrors :
    (calling (.decompress (codes [4]) (codes [3]))).adapter.phase = .ready ∧
    (calling (.decompress (codes [4]) (codes [3]))).core.free = true ∧ files.read (codes [4]) = none ∧
    Files.read { files with contents := [(codes [1], codes [0x30, 0xC0, 0x00])] } (codes [1]) =
      some (codes [0x30, 0xC0, 0x00]) ∧
    (∀ m, State.reset.params.maxStreamBytes = some m → (codes [0x30, 0xC0, 0x00]).length ≤ m) ∧
    decompressCore State.reset.params (unpack (codes [0x30, 0xC0, 0x00])) = .error (.decodeTruncated 9) :=
  ⟨rfl, by decide, by decide, by decide, fun m h => (by cases h), rfl⟩

/-- An output file that cannot be written ends the call with IO_ERROR and the direction (R302). -/
theorem test_adapter_write_failure :
    System.step
        { calling (.decompress (codes [1]) (codes [2])) with
          adapter :=
            { calls := [], phase := .writing (.decompress (codes [1]) (codes [2])) (codes [5]), files := files,
              results := [] } } =
      .next
        { calling (.decompress (codes [1]) (codes [2])) with
          adapter :=
            { calls := [], phase := .ready, files := files, results := [.failed (.ioError (codes [2]) .write)] } } :=
  rfl

end Sys2Proof.Tests
end

/-! The encoding's family: the tokens' fields, the decoder's inversion, and the encoder's loop against the greedy parse. -/

namespace Sys2Proof

/-! ## Fields -/

/-- A field that lies inside the sequence, written out again, is the bits it was read from (R10, R11). -/
theorem bitsOf_bitRead {s : Bits} {k w : Nat} (h : k + w ≤ s.length) :
    bitsOf w (bitRead s k w) = (s.drop k).take w :=
  bitsOf_val_of_length (by rw [List.length_take, List.length_drop]; omega)

/-- The first payload byte is recovered from the distance (R103, R104). -/
theorem highByte_distanceOf {b2 : Nat} (b1 : Nat) (h : b2 < 256) : highByte (distanceOf b1 b2) = b1 := by
  rw [highByte_eq, distanceOf_eq b1 h]; omega

/-- The second payload byte is recovered from the distance and the length (R103, R104). -/
theorem lowByte_distanceOf_lengthOf {b2 : Nat} (b1 : Nat) (h : b2 < 256) :
    lowByte (distanceOf b1 b2) (lengthOf b2) = b2 := by
  rw [lengthOf_eq, lowByte_eq _ (Nat.mod_lt _ (by decide)), distanceOf_eq b1 h]; omega

theorem wellFormed_matchTok {d len : Nat} : (Instr.matchTok d len).wellFormed = true ↔ d < 4096 ∧ len < 16 := by
  simp [Instr.wellFormed]

/-- Two payload bytes always assemble to fields that fit (R104). -/
theorem wellFormed_assembled {b1 b2 : Nat} (h1 : b1 < 256) (h2 : b2 < 256) :
    (Instr.matchTok (distanceOf b1 b2) (lengthOf b2)).wellFormed = true := by
  rw [wellFormed_matchTok, distanceOf_eq b1 h2, lengthOf_eq]; omega

/-- A MATCH assembled from two payload bytes is encoded as these bytes (R103, R104). -/
theorem encode_assembled {b2 : Nat} (b1 : Nat) (h : b2 < 256) :
    encode (.matchTok (distanceOf b1 b2) (lengthOf b2)) = some (true :: (bitsOf 8 b1 ++ bitsOf 8 b2)) := by
  rw [encode_matchTok, highByte_distanceOf b1 h, lowByte_distanceOf_lengthOf b1 h]

/-- A byte's bits, most significant first (R102). -/
theorem bitsOf_byte (b : Byte) :
    bitsOf 8 b.toNat = [b.getLsbD 7, b.getLsbD 6, b.getLsbD 5, b.getLsbD 4, b.getLsbD 3, b.getLsbD 2, b.getLsbD 1,
      b.getLsbD 0] := rfl

/-! ## The decoder on written tokens, and its inversion -/

/-- A flag 0 and the bits of a byte decode to LIT of that byte, whatever follows (R102). -/
theorem decodeToken_lit_append (b : Byte) (rest : Bits) :
    decodeToken (false :: (bitsOf 8 b.toNat ++ rest)) = .token (.lit b) rest := by
  rw [decodeToken_false _ (by simp), bitRead_bitsOf_append b.isLt, BitVec.ofNat_toNat, BitVec.setWidth_eq,
    List.drop_left' (bitsOf_length 8 _)]

/-- A flag 1 and two payload bytes decode to the MATCH assembled from them, whatever follows (R104). -/
theorem decodeToken_match_append {b1 b2 : Nat} (h1 : b1 < 256) (h2 : b2 < 256) (rest : Bits) :
    decodeToken (true :: (bitsOf 8 b1 ++ (bitsOf 8 b2 ++ rest))) =
      .token (.matchTok (distanceOf b1 b2) (lengthOf b2)) rest := by
  have hlow : bitRead (bitsOf 8 b1 ++ (bitsOf 8 b2 ++ rest)) 8 8 = b2 := by
    have h := bitRead_append_right (bitsOf 8 b1) (bitsOf 8 b2 ++ rest) 0 8
    rwa [bitsOf_length, bitRead_bitsOf_append h2] at h
  rw [decodeToken_true _ (by simp; omega), bitRead_bitsOf_append h1, hlow, ← List.append_assoc,
    List.drop_left' (by simp)]

/-- What a decoded token was read from: a flag 0 and a LIT's byte, or a flag 1 and the two bytes that a MATCH is assembled
from (R101, R102, R104). -/
theorem decodeToken_eq_token {s rest : Bits} {i : Instr} (h : decodeToken s = .token i rest) :
    (∃ b : Byte, i = .lit b ∧ s = false :: bitsOf 8 b.toNat ++ rest) ∨
    (∃ b1 b2, b1 < 256 ∧ b2 < 256 ∧ i = .matchTok (distanceOf b1 b2) (lengthOf b2) ∧
      s = true :: (bitsOf 8 b1 ++ bitsOf 8 b2) ++ rest) := by
  obtain ⟨_, e⟩ | ⟨r, rfl, h8, e⟩ | ⟨_, _, _, _, e⟩ | ⟨r, rfl, h16, e⟩ := decodeToken_cases s
  · rw [e] at h; cases h
  · rw [e] at h; cases h
    refine .inl ⟨_, rfl, ?_⟩
    rw [BitVec.toNat_ofNat, Nat.mod_eq_of_lt (bitRead_lt r 0 8), bitsOf_bitRead (by omega), List.cons_append,
      List.drop_zero, List.take_append_drop]
  · rw [e] at h; cases h
  · rw [e] at h; cases h
    refine .inr ⟨_, _, bitRead_lt r 0 8, bitRead_lt r 8 8, rfl, ?_⟩
    rw [bitsOf_bitRead (by omega), bitsOf_bitRead (by omega), List.drop_zero, ← List.take_add, List.cons_append,
      List.take_append_drop]

/-- Settles O35: the byte's eight bits are `bits_8` of it, and the decoder reads them back. -/
theorem litIsAZeroFlagAndItsByte : Obligations.LitIsAZeroFlagAndItsByte := by
  intro b rest
  rw [← bitsOf_byte]
  exact ⟨encode_lit b, decodeToken_lit_append b rest⟩

/-- Settles O36: the two shifts and masks of R104 are a division and a remainder by 16. -/
theorem matchFieldsAreAssembledFromTwoBytes : Obligations.MatchFieldsAreAssembledFromTwoBytes := by
  intro b1 b2 rest h1 h2
  refine ⟨?_, by omega, by omega⟩
  rw [← distanceOf_eq b1 h2, ← lengthOf_eq, List.cons_append, List.append_assoc]
  exact decodeToken_match_append h1 h2 rest

/-- Settles O39, by the two forms a decoded token can have. -/
theorem encodeOfDecodeIsTheBits : Obligations.EncodeOfDecodeIsTheBits := by
  intro s rest i h
  obtain ⟨b, rfl, rfl⟩ | ⟨b1, b2, h1, h2, rfl, rfl⟩ := decodeToken_eq_token h
  · exact ⟨rfl, rfl, ⟨_, encode_lit b, rfl⟩, fun _ => ⟨⟨b, rfl⟩, by simp; omega⟩, by simp⟩
  · exact ⟨rfl, wellFormed_assembled h1 h2, ⟨_, encode_assembled b1 h2, rfl⟩, by simp,
      fun _ => ⟨⟨_, _, rfl⟩, by simp; omega⟩⟩

end Sys2Proof

namespace Sys2Proof.Machine

/-! ## The pad -/

/-- PAD appends zero bits only (R106, R185). -/
theorem padStep_eq (enc : Bits) : padStep enc = enc ++ List.replicate (padCount enc.length) false := by
  rw [padStep, bitAppend, bitsOf_zero]

theorem padStep_length_mod (enc : Bits) : (padStep enc).length % 8 = 0 := by
  rw [padStep_eq, List.length_append, List.length_replicate]
  exact padCount_add_mod enc.length

/-- Settles O28: `padCount` is R106's count, and COMPRESS packs the padded bits. -/
theorem padReachesAByteBoundaryWithZeros : Obligations.PadReachesAByteBoundaryWithZeros :=
  ⟨fun enc => ⟨padStep_eq enc, padStep_length_mod enc, padCount_lt enc.length⟩,
    fun w data => congrArg pack (padStep_eq (encodedBits w data))⟩

/-! ## The encoder's loop and the greedy parse -/

/-- An instruction with bits is a LIT of 9 bits or a MATCH of 17 bits (R101). -/
theorem token_form_of_encode {i : Instr} {bits : Bits} (h : encode i = some bits) :
    (∃ b, i = .lit b ∧ bits.length = 9) ∨ (∃ d len, i = .matchTok d len ∧ bits.length = 17) := by
  cases i with
  | lit b => cases h; exact .inl ⟨b, rfl, rfl⟩
  | matchTok d len => cases h; exact .inr ⟨d, len, rfl, rfl⟩
  | configure => cases h
  | findMatch => cases h
  | compress => cases h
  | decompress => cases h

theorem encodeTokens_cons_of_some {i : Instr} {ts : List Instr} {a b : Bits} (ha : encode i = some a)
    (hb : encodeTokens ts = some b) : encodeTokens (i :: ts) = some (a ++ b) := by
  simp only [encodeTokens, ha, hb]

/-- Where a list of tokens has bits, so has each of its tokens. -/
theorem encode_of_mem_encodeTokens {ts : List Instr} {bits : Bits} (h : encodeTokens ts = some bits) {i : Instr}
    (hi : i ∈ ts) : ∃ a, encode i = some a := by
  induction ts generalizing bits with
  | nil => cases hi
  | cons j ts ih =>
    obtain ⟨a, b, ha, hb, _⟩ := encodeTokens_cons h
    obtain rfl | hi := List.mem_cons.mp hi
    · exact ⟨a, ha⟩
    · exact ih hb hi

/-- The loop appends to ENC the encodings of the parse's tokens from CUR, one a turn (R180, R181). -/
theorem encodeLoop_enc (fuel : Nat) (c : Compressor) :
    ∃ bits, encodeTokens (parseFrom c.w c.input fuel c.cur) = some bits ∧ (encodeLoop fuel c).enc = c.enc ++ bits := by
  induction fuel generalizing c with
  | zero => exact ⟨[], rfl, (List.append_nil _).symm⟩
  | succ fuel ih =>
    by_cases hc : c.cur < c.n
    · obtain ⟨i, c', t, hstep, hin, hw, _, _, _, ht, henc, hparse⟩ := encoderStep_spec hc
      obtain ⟨ts, hts, hloop⟩ := ih c'
      rw [hin, hw] at hts
      refine ⟨t ++ ts, ?_, ?_⟩
      · rw [hparse fuel]
        exact encodeTokens_cons_of_some ht hts
      · rw [encodeLoop, if_pos hc, hstep]
        simpa [henc] using hloop
    · refine ⟨[], ?_, ?_⟩
      · rw [parseFrom, if_neg (show ¬c.cur < c.input.length from hc), encodeTokens]
      · rw [encodeLoop, if_neg hc, List.append_nil]

/-- ENC at the end of COMPRESS's loop is the encoding of the greedy parse (R100, R180). -/
theorem encodeTokens_parse (w : Nat) (data : Bytes) : encodeTokens (parse w data) = some (encodedBits w data) := by
  obtain ⟨bits, hbits, henc⟩ := encodeLoop_enc data.length (Compressor.start data w)
  rw [encodedBits, henc]
  exact hbits

/-- Settles O30: the loop's bits are those of the parse, and PAD follows them. -/
theorem encodedStreamIsTheGreedyParse : Obligations.EncodedStreamIsTheGreedyParse := by
  intro w data
  have hparse := encodeTokens_parse w data
  refine ⟨fun i hi => ?_, _, _, hparse, rfl, ?_, padStep_eq _, padStep_length_mod _⟩
  · obtain ⟨bits, hbits⟩ := encode_of_mem_encodeTokens hparse hi
    exact ⟨bits, hbits, token_form_of_encode hbits⟩
  · exact Nat.le_of_lt_succ (padCount_lt _)

end Sys2Proof.Machine

/-! The match finder's family: the candidates of R145 in terms of the run count that the scan compares. -/

namespace Sys2Proof.Machine

/-- Prefix closure and the run count's maximality: within the candidate lengths, a length matches exactly up to the run count
(R149). -/
theorem tiledMatch_iff_le_runLength {data : Bytes} {pos len : Nat} (d : Nat) (hlen : len ≤ maxL data.length pos) :
    TiledMatch data pos d len ↔ len ≤ runLength data pos d := by
  constructor
  · intro h
    have hrun : len ≤ max 0 (runFrom data pos d (maxL data.length pos) 0) :=
      le_runFrom data pos d (by omega) fun j _ hj => (tileByteMatches_iff data pos d j).mpr (h j hj)
    rwa [Nat.zero_max] at hrun
  · intro h k hk
    exact (tileByteMatches_iff data pos d k).mp (tileByteMatches_of_lt_runFrom data pos d k.zero_le (hk.trans_le h))

/-- The candidates of an eligible distance are the lengths from MIN_MATCH to its run count (R145, R149). -/
theorem candidate_iff {data : Bytes} {pos w d len : Nat} :
    Candidate data pos w d len ↔ 1 ≤ d ∧ d ≤ min w pos ∧ 2 ≤ len ∧ len ≤ runLength data pos d := by
  constructor
  · rintro ⟨h1, hd, h2, hlen, hmatch⟩
    exact ⟨h1, hd, h2, (tiledMatch_iff_le_runLength d hlen).mp hmatch⟩
  · rintro ⟨h1, hd, h2, hrun⟩
    have hlen : len ≤ maxL data.length pos := hrun.trans (runLength_le_maxL data pos d)
    exact ⟨h1, hd, h2, hlen, (tiledMatch_iff_le_runLength d hlen).mpr hrun⟩

/-- Settles O21: the scan keeps the longest run and its smallest distance, and a candidate's length is at most the run count
of its distance. -/
theorem finderSelectsTheLongestThenTheNearest : Obligations.FinderSelectsTheLongestThenTheNearest := by
  intro data pos w _
  simp only [candidate_iff]
  obtain ⟨hnone, hshort⟩ | ⟨d, len, hsome, h1, hd, h2, hrun, hbest⟩ := findLongestMatch_cases data pos w
  · rw [hnone]
    refine ⟨fun _ _ h => (nomatch h), ?_⟩
    rintro - d len ⟨h1, hd, h2, hlen⟩
    exact (h2.trans hlen).not_gt (hshort d h1 hd)
  · rw [hsome]
    refine ⟨?_, fun h => nomatch h⟩
    rintro _ _ ⟨⟩
    refine ⟨⟨h1, hd, h2, hrun.ge⟩, ?_, ?_⟩
    · rintro d' len' ⟨h1', hd', -, hlen'⟩
      exact hlen'.trans (hbest d' h1' hd').1
    · rintro d' ⟨h1', hd', -, hlen'⟩
      obtain ⟨hle, hnearest⟩ := hbest d' h1' hd'
      exact hnearest (hle.antisymm hlen')

end Sys2Proof.Machine

/-! The token encoder's family: the encoder step by the finder's answer, and the COMPRESS step that carries it out. -/

namespace Sys2Proof.Machine

/-- Where the finder reports a match, the encoder step emits it and passes over it (R181). -/
theorem encoderStep_of_some {c : Compressor} {d len : Nat}
    (h : findLongestMatch c.input c.cur c.w = some (d, len)) :
    encoderStep c = some { c with enc := emitMatch d len c.enc, cur := c.cur + len } := by
  simp only [encoderStep, h]

/-- Where the finder reports none, the encoder step emits the byte at the cursor (R181). -/
theorem encoderStep_of_none {c : Compressor} {b : Byte} (h : findLongestMatch c.input c.cur c.w = none)
    (hb : c.input[c.cur]? = some b) :
    encoderStep c = some { c with enc := emitLit b c.enc, cur := c.cur + 1 } := by
  simp only [encoderStep, h, memRead, hb]

/-- While the cursor is inside IN, a step of COMPRESS replaces the compressor by the encoder step's and changes nothing else
(R180). -/
theorem step_of_encoderStep {s : State} {c c' : Compressor} (hr : s.resetRequested = false)
    (ha : s.activity = .compressing c) (hc : c.cur < c.n) (h : encoderStep c = some c') :
    step s = .next { s with activity := .compressing c' } := by
  rw [step_of_compressing hr ha, compressStep, if_pos hc, h]
  rfl

/-- Settles O26: the step is the encoder step, the emitted bits are the token's, and the bounds are the finder's. -/
theorem encoderStepEmitsTheFinderResult : Obligations.EncoderStepEmitsTheFinderResult := by
  intro s c hr ha hc
  refine ⟨fun d len h => ?_, fun b h hb => ?_⟩
  · obtain ⟨hd, hdw, hlen, hlen15⟩ := findLongestMatch_bounds h
    have hbits : emitMatch d len c.enc = c.enc ++ ([true] ++ bitsOf 8 (d / 16) ++ bitsOf 8 (d % 16 * 16 + len)) := by
      rw [emitMatch_eq, highByte_eq, lowByte_eq d (by omega)]
      rfl
    refine ⟨?_, hd, by omega, hlen, by omega, by omega⟩
    rw [step_of_encoderStep hr ha hc (encoderStep_of_some h), hbits]
  · rw [step_of_encoderStep hr ha hc (encoderStep_of_none h hb), emitLit_eq]
    rfl

end Sys2Proof.Machine

/-! The tokens' encoding: the encoder's fields read back, table words, rejections, packing, and the listing's assembler. -/

namespace Sys2Proof

/-! ## Decoding an encoding -/

theorem highByte_lt {d : Nat} (h : d < 4096) : highByte d < 256 := by
  rw [highByte_eq]; omega

theorem lowByte_lt {len : Nat} (d : Nat) (h : len < 16) : lowByte d len < 256 := by
  rw [lowByte_eq d h]; omega

/-- The decoder assembles the distance that the encoder split (R103, R104). -/
theorem distanceOf_highByte_lowByte {len : Nat} (d : Nat) (h : len < 16) :
    distanceOf (highByte d) (lowByte d len) = d := by
  rw [distanceOf_eq _ (lowByte_lt d h), highByte_eq, lowByte_eq d h]; omega

/-- The decoder reads back the length that the encoder put into the low byte (R103, R104). -/
theorem lengthOf_lowByte {len : Nat} (d : Nat) (h : len < 16) : lengthOf (lowByte d len) = len := by
  rw [lengthOf_eq, lowByte_eq d h]; omega

/-- The two tokens (R113). -/
theorem isToken_cases {i : Instr} (h : i.isToken = true) : (∃ b, i = .lit b) ∨ ∃ d len, i = .matchTok d len := by
  cases i with
  | lit b => exact .inl ⟨b, rfl⟩
  | matchTok d len => exact .inr ⟨d, len, rfl⟩
  | configure => cases h
  | findMatch => cases h
  | compress => cases h
  | decompress => cases h

/-- The decoder undoes the encoder on every well-formed token, whatever follows (R101 to R105). -/
theorem decodeToken_encode {i : Instr} {bits : Bits} (hw : i.wellFormed = true) (h : encode i = some bits) (rest : Bits) :
    decodeToken (bits ++ rest) = .token i rest := by
  obtain ⟨b, rfl, -⟩ | ⟨d, len, rfl, -⟩ := Machine.token_form_of_encode h <;> cases h
  · exact decodeToken_lit_append b rest
  · obtain ⟨hd, hlen⟩ := wellFormed_matchTok.mp hw
    rw [List.cons_append, List.append_assoc, decodeToken_match_append (highByte_lt hd) (lowByte_lt d hlen),
      distanceOf_highByte_lowByte d hlen, lengthOf_lowByte d hlen]

/-- Exactly the tokens have bits (R101, R114). -/
theorem encode_of_isToken {i : Instr} (h : i.isToken = true) : ∃ bits, encode i = some bits := by
  obtain ⟨b, rfl⟩ | ⟨d, len, rfl⟩ := isToken_cases h
  · exact ⟨_, rfl⟩
  · exact ⟨_, rfl⟩

/-- Settles O38: a token has bits, and the decoder undoes the encoder on them. -/
theorem decodeOfEncodeIsTheToken : Obligations.DecodeOfEncodeIsTheToken := by
  intro i rest htok hw
  obtain ⟨bits, hbits⟩ := encode_of_isToken htok
  exact ⟨bits, hbits, decodeToken_encode hw hbits rest⟩

/-! ## Table words -/

/-- A table word decodes to the token whose bits spell its value (R102, R103, log 11). -/
theorem decodeTableWord_of_encode {i : Instr} {bits : Bits} {nbits : Nat} (hw : i.wellFormed = true)
    (h : encode i = some bits) (hn : 9 ≤ nbits) (hlen : bits.length = tokenWidth nbits) :
    decodeTableWord nbits (val bits) = some i := by
  have hdec : decodeToken bits = .token i [] := by simpa using decodeToken_encode hw h []
  rw [decodeTableWord, if_neg (by simpa using hn), tokenBits, bitsOf_val_of_length hlen, hdec]

/-- Settles O37: the value of LIT's bits is the byte, that of MATCH's bits the flag's weight and the two fields. -/
theorem tableWordsHoldTheFields : Obligations.TableWordsHoldTheFields := by
  refine ⟨fun w hw => ?_, fun d len hd hlen => ?_⟩
  · have hval : val (false :: bitsOf 8 (BitVec.ofNat 8 w).toNat) = w := by
      rw [val_cons, val_bitsOf (BitVec.isLt _), BitVec.toNat_ofNat, Nat.mod_eq_of_lt (by omega)]
      simp
    have h := decodeTableWord_of_encode (nbits := 16) rfl (encode_lit (BitVec.ofNat 8 w)) (by omega) (by simp [tokenWidth])
    rwa [hval] at h
  · have hval : val (true :: (bitsOf 8 (highByte d) ++ bitsOf 8 (lowByte d len))) = 65536 + d * 16 + len := by
      rw [val_cons, val_append, val_bitsOf (highByte_lt hd), val_bitsOf (lowByte_lt d hlen), highByte_eq,
        lowByte_eq d hlen]
      simp
      omega
    have h := decodeTableWord_of_encode (nbits := 24) (wellFormed_matchTok.mpr ⟨hd, hlen⟩) (encode_matchTok d len)
      (by omega) (by simp [tokenWidth])
    rwa [hval] at h

/-- Settles O41: each word is a byte, or the flag's weight and two fields. -/
theorem writtenWordsDecode : Obligations.WrittenWordsDecode := by
  obtain ⟨hlit, hmatch⟩ := tableWordsHoldTheFields
  exact ⟨hlit 0x00 (by decide), hlit 0xFF (by decide), hmatch 1 2 (by decide) (by decide), hmatch 3 6 (by decide) (by decide),
    hmatch 400 15 (by decide) (by decide), hmatch 4095 15 (by decide) (by decide), hmatch 0 0 (by decide) (by decide)⟩

/-! ## Rejections -/

/-- Settles O40, by the four things the decoder can answer. -/
theorem decoderRefusesOnlyShortStreams : Obligations.DecoderRefusesOnlyShortStreams := by
  intro s
  obtain ⟨hs, e⟩ | ⟨r, rfl, h8, e⟩ | ⟨r, rfl, h8, h16, e⟩ | ⟨r, rfl, h16, e⟩ := decodeToken_cases s <;> rw [e]
  · refine ⟨fun n => ?_, fun n => ?_⟩
    · simp [hs, eq_comm]
    · refine ⟨fun h => (by cases h), ?_⟩
      rintro ⟨r, rfl, h8, -, rfl⟩
      rw [List.length_cons] at hs
      omega
  · refine ⟨fun n => ?_, fun n => ?_⟩
    · simp; omega
    · simp
  · refine ⟨fun n => ?_, fun n => ?_⟩
    · simp; omega
    · simp only [Decoded.reject.injEq, DecodeReject.truncatedMatch.injEq, List.cons.injEq, true_and]
      constructor
      · rintro rfl
        exact ⟨r, rfl, h8, h16, rfl⟩
      · rintro ⟨_, rfl, -, -, rfl⟩
        rfl
  · refine ⟨fun n => ?_, fun n => ?_⟩
    · simp; omega
    · refine ⟨fun h => (by cases h), ?_⟩
      rintro ⟨r', hr, -, hn, rfl⟩
      cases hr
      omega

/-! ## Packing -/

/-- Bit `k` of `bits_w(v)` is the bit of weight `w − 1 − k` (R10). -/
theorem getElem?_bitsOf {w k : Nat} (v : Nat) (h : k < w) : (bitsOf w v)[k]? = some (v.testBit (w - 1 - k)) := by
  induction w generalizing k with
  | zero => omega
  | succ w ih =>
    cases k with
    | zero => rfl
    | succ k =>
      rw [bitsOf, List.getElem?_cons_succ, ih (by omega), show w + 1 - 1 - (k + 1) = w - 1 - k by omega]

theorem pack_unpack (bytes : Bytes) : pack (unpack bytes) = bytes := by
  induction bytes with
  | nil => rfl
  | cons b bytes ih =>
    rw [unpack_cons, pack_byte_append _ _ (bitsOf_length 8 _), val_bitsOf b.isLt, ih, BitVec.ofNat_toNat,
      BitVec.setWidth_eq]

/-- Packing `n` whole bytes loses no bit and gives `n` bytes (R73). -/
theorem unpack_pack_of_length {n : Nat} {s : Bits} (h : s.length = 8 * n) : unpack (pack s) = s ∧ (pack s).length = n := by
  induction n generalizing s with
  | zero =>
    obtain rfl := List.length_eq_zero_iff.mp h
    exact ⟨rfl, rfl⟩
  | succ n ih =>
    have hbyte : (s.take 8).length = 8 := by rw [List.length_take]; omega
    obtain ⟨hbits, hlen⟩ := ih (s := s.drop 8) (by rw [List.length_drop]; omega)
    have hval : val (s.take 8) < 2 ^ 8 := (val_lt _).trans_eq (by rw [hbyte])
    rw [← List.take_append_drop 8 s, pack_byte_append _ _ hbyte]
    refine ⟨?_, by rw [List.length_cons, hlen]⟩
    rw [unpack_cons, hbits, BitVec.toNat_ofNat, Nat.mod_eq_of_lt hval, bitsOf_val_of_length hbyte]

theorem unpack_pack {s : Bits} (h : s.length % 8 = 0) : unpack (pack s) = s :=
  (unpack_pack_of_length (n := s.length / 8) (by omega)).1

theorem pack_length {s : Bits} (h : s.length % 8 = 0) : (pack s).length = s.length / 8 :=
  (unpack_pack_of_length (n := s.length / 8) (by omega)).2

/-- Stream bit `k` is bit `7 − (k mod 8)` of byte `k div 8` (R73). -/
theorem getElem?_unpack {bytes : Bytes} {k : Nat} (h : k < 8 * bytes.length) :
    (unpack bytes)[k]? = (bytes[k / 8]?).map fun b => b.toNat.testBit (7 - k % 8) := by
  induction bytes generalizing k with
  | nil => simp at h
  | cons b bytes ih =>
    rw [unpack_cons]
    by_cases hk : k < 8
    · rw [List.getElem?_append_left (by simpa using hk), getElem?_bitsOf _ hk, Nat.div_eq_of_lt hk, Nat.mod_eq_of_lt hk]
      rfl
    · rw [List.length_cons] at h
      rw [List.getElem?_append_right (by simpa using hk), bitsOf_length, ih (by omega),
        show k / 8 = (k - 8) / 8 + 1 by omega, List.getElem?_cons_succ, show (k - 8) % 8 = k % 8 by omega]

/-- Settles O29: each direction goes byte by byte. -/
theorem packAndUnpackAreInverse : Obligations.PackAndUnpackAreInverse :=
  ⟨fun bytes => ⟨unpack_length_eq bytes, pack_unpack bytes⟩, fun _ h => ⟨unpack_pack h, pack_length h⟩,
    fun _ _ h => getElem?_unpack h⟩

/-! ## The assembler -/

/-- A line with operands in range that stands for a token assembles to the token's bits (R111, R112). -/
theorem assembleLine_of_token {l : Line} {i : Instr} (ht : l.token = some i) (hw : l.wellFormed = true) :
    ∃ bits, encode i = some bits ∧ assembleLine l = some bits ∧ i.wellFormed = true := by
  cases l with
  | lit b =>
    cases ht
    exact ⟨_, rfl, by rw [assembleLine, if_pos hw]; rfl, rfl⟩
  | matchLine d len =>
    cases ht
    exact ⟨_, rfl, by rw [assembleLine, if_pos hw]; rfl, by simpa [Line.wellFormed, wellFormed_matchTok] using hw⟩
  | pad k => cases ht

theorem assembleLine_pad {k : Nat} (hw : (Line.pad k).wellFormed = true) :
    assembleLine (.pad k) = some (List.replicate k false) := by
  rw [assembleLine, if_pos hw]

theorem assembleLine_of_not_wellFormed {l : Line} (hw : ¬ l.wellFormed = true) : assembleLine l = none := by
  simp [assembleLine, hw]

/-- The lines other than PAD are those that stand for a token (R111). -/
theorem token_of_ne_pad {l : Line} (h : ∀ k, l ≠ .pad k) : ∃ i, l.token = some i := by
  cases l with
  | lit b => exact ⟨_, rfl⟩
  | matchLine d len => exact ⟨_, rfl⟩
  | pad k => exact absurd rfl (h k)

theorem isSome_assembleLine (l : Line) : (assembleLine l).isSome = l.wellFormed := by
  by_cases hw : l.wellFormed = true
  · by_cases hp : ∃ k, l = .pad k
    · obtain ⟨k, rfl⟩ := hp
      rw [assembleLine_pad hw, hw]
      rfl
    · obtain ⟨i, hi⟩ := token_of_ne_pad fun k hk => hp ⟨k, hk⟩
      obtain ⟨bits, -, e, -⟩ := assembleLine_of_token hi hw
      rw [e, hw]
      rfl
  · rw [assembleLine_of_not_wellFormed hw, Bool.eq_false_iff.mpr hw]
    rfl

/-- A line that is no PAD, in front of others, is assembled in front of them (R111). -/
theorem assemble_cons_cons {l : Line} (h : ∀ k, l ≠ .pad k) (m : Line) (rest : List Line) :
    assemble (l :: m :: rest) = (assembleLine l).bind fun t => (assemble (m :: rest)).map (t ++ ·) := by
  rw [assemble]
  · cases assembleLine l <;> cases assemble (m :: rest) <;> rfl
  · exact h

theorem listingWellFormed_cons_cons {l : Line} (h : ∀ k, l ≠ .pad k) (m : Line) (rest : List Line) :
    Line.listingWellFormed (l :: m :: rest) = (l.wellFormed && Line.listingWellFormed (m :: rest)) := by
  rw [Line.listingWellFormed]
  exact h

theorem isSome_assemble (lines : List Line) : (assemble lines).isSome = Line.listingWellFormed lines := by
  induction lines using Line.listingWellFormed.induct with
  | case1 => rfl
  | case2 l => exact isSome_assembleLine l
  | case3 k m rest => rfl
  | case4 l m rest hne ih =>
    rw [assemble_cons_cons hne, listingWellFormed_cons_cons hne, ← ih, ← isSome_assembleLine l]
    cases assembleLine l <;> simp

/-- A listing's bits are its tokens' encodings in order and then `k` zero bits, the last line's where it is a PAD (R111). -/
theorem assemble_of_listingWellFormed {lines : List Line} (h : Line.listingWellFormed lines = true) :
    ∃ tokens bits k, encodeTokens tokens = some bits ∧ assemble lines = some (bits ++ List.replicate k false) ∧ k ≤ 7 ∧
      (∀ i ∈ tokens, i.wellFormed = true) ∧
      ((lines.map Line.token = tokens.map some ∧ k = 0) ∨
       (lines.map Line.token = tokens.map some ++ [none] ∧ lines.getLast? = some (.pad k))) := by
  induction lines using Line.listingWellFormed.induct with
  | case1 => exact ⟨[], [], 0, rfl, rfl, by omega, by simp, .inl ⟨rfl, rfl⟩⟩
  | case2 l =>
    have hw : l.wellFormed = true := h
    by_cases hp : ∃ k, l = .pad k
    · obtain ⟨k, rfl⟩ := hp
      exact ⟨[], [], k, rfl, assembleLine_pad hw, by simpa [Line.wellFormed] using hw, by simp, .inr ⟨rfl, rfl⟩⟩
    · obtain ⟨i, hi⟩ := token_of_ne_pad fun k hk => hp ⟨k, hk⟩
      obtain ⟨bits, hbits, e, hiw⟩ := assembleLine_of_token hi hw
      exact ⟨[i], bits ++ [], 0, Machine.encodeTokens_cons_of_some hbits rfl, by simpa [assemble] using e, by omega,
        by simpa using hiw, .inl ⟨by simp [hi], rfl⟩⟩
  | case3 k m rest => cases h
  | case4 l m rest hne ih =>
    rw [listingWellFormed_cons_cons hne, Bool.and_eq_true] at h
    obtain ⟨hw, hrest⟩ := h
    obtain ⟨i, hi⟩ := token_of_ne_pad hne
    obtain ⟨a, ha, e, hiw⟩ := assembleLine_of_token hi hw
    obtain ⟨tokens, bits, k, hbits, hasm, hk, htokens, hmap⟩ := ih hrest
    refine ⟨i :: tokens, a ++ bits, k, Machine.encodeTokens_cons_of_some ha hbits, ?_, hk, by simpa using ⟨hiw, htokens⟩, ?_⟩
    · rw [assemble_cons_cons hne, e, hasm, List.append_assoc]
      rfl
    · obtain ⟨hmap, rfl⟩ | ⟨hmap, hlast⟩ := hmap
      · exact .inl ⟨by rw [List.map_cons, hi, hmap, List.map_cons], rfl⟩
      · exact .inr ⟨by rw [List.map_cons, hi, hmap, List.map_cons, List.cons_append],
          by rw [List.getLast?_cons_cons, hlast]⟩

/-- Settles O42: line by line, with the PAD in the last line's place. -/
theorem assemblerAcceptsWellFormedListings : Obligations.AssemblerAcceptsWellFormedListings :=
  ⟨isSome_assemble, fun _ => assemble_of_listingWellFormed,
    fun b hb => ⟨BitVec.ofNat 8 b, by rw [BitVec.toNat_ofNat, Nat.mod_eq_of_lt (by omega)], rfl⟩, fun _ _ => rfl⟩

end Sys2Proof

/-! The match finder: copy-forward comparison, what the finder reads, and the corner cases. -/

namespace Sys2Proof.Machine

/-- Settles O22: the run count is the maximum of a downward closed set of lengths. -/
theorem runCountIsTheLongestTiledMatch : Obligations.RunCountIsTheLongestTiledMatch :=
  fun _ _ d _ _ _ _ hlen => tiledMatch_iff_le_runLength d hlen

/-! ## Copy-forward comparison -/

/-- The tiling repeats with period `d`. -/
theorem tile_index_sub {d k : Nat} (h : d ≤ k) : (k - d) % d = k % d :=
  (Nat.mod_eq_sub_mod h).symm

/-- Byte `k` of a tiled match equals the byte one distance before it: in the source itself, or one period earlier in the
tiling (R151). -/
theorem getElem?_of_tiledMatch {data : Bytes} {pos d len k : Nat} (hd : d ≤ pos) (h : TiledMatch data pos d len)
    (hk : k < len) : data[pos + k]? = data[pos + k - d]? := by
  by_cases hkd : k < d
  · rw [h k hk, Nat.mod_eq_of_lt hkd, show pos - d + k = pos + k - d by omega]
  · rw [h k hk, ← tile_index_sub (by omega : d ≤ k), ← h (k - d) (by omega), show pos + (k - d) = pos + k - d by omega]

/-- Bytes that each equal the one a distance before them repeat the source, by strong induction on the byte (R151). -/
theorem tiledMatch_of_copyForward {data : Bytes} {pos d len : Nat} (h1 : 1 ≤ d) (hd : d ≤ pos)
    (h : ∀ k, k < len → data[pos + k]? = data[pos + k - d]?) : TiledMatch data pos d len := by
  intro k
  induction k using Nat.strong_induction_on with
  | _ k ih =>
    intro hk
    rw [h k hk]
    by_cases hkd : k < d
    · rw [Nat.mod_eq_of_lt hkd, show pos + k - d = pos - d + k by omega]
    · rw [← tile_index_sub (by omega : d ≤ k), ← ih (k - d) (by omega) (by omega),
        show pos + k - d = pos + (k - d) by omega]

/-- Settles O23: one direction unrolls the tiling by a period, the other is an induction over the bytes. -/
theorem tiledMatchIsCopyForward : Obligations.TiledMatchIsCopyForward :=
  fun _ _ _ _ h1 hd => ⟨fun h _ hk => getElem?_of_tiledMatch hd h hk, tiledMatch_of_copyForward h1 hd⟩

/-- A match that the finder reports repeats the bytes a distance before it (R145, R151). -/
theorem findLongestMatch_copyForward {data : Bytes} {pos w d len k : Nat}
    (h : findLongestMatch data pos w = some (d, len)) (hk : k < len) : data[pos + k]? = data[pos + k - d]? := by
  obtain ⟨-, hd, h2, hlen⟩ := findLongestMatch_bounds h
  obtain ⟨hcand, -, -⟩ := (finderSelectsTheLongestThenTheNearest data pos w (by omega)).1 d len h
  obtain ⟨-, -, -, -, hmatch⟩ := hcand
  exact getElem?_of_tiledMatch (by omega) hmatch hk

/-! ## What the finder reads -/

/-- The loop's count depends only on the comparisons it makes. -/
theorem runFrom_congr {data data' : Bytes} {pos d fuel k : Nat}
    (h : ∀ j, k ≤ j → j < k + fuel → tileByteMatches data pos d j = tileByteMatches data' pos d j) :
    runFrom data pos d fuel k = runFrom data' pos d fuel k := by
  induction fuel generalizing k with
  | zero => rfl
  | succ fuel ih =>
    rw [runFrom, runFrom, h k le_rfl (by omega), ih fun j hj hj' => h j (by omega) (by omega)]

/-- The finder's result depends only on the run counts of the eligible distances. -/
theorem findLongestMatch_congr {data data' : Bytes} {pos w : Nat}
    (h : ∀ d, 1 ≤ d → d ≤ min w pos → runLength data pos d = runLength data' pos d) :
    findLongestMatch data pos w = findLongestMatch data' pos w := by
  have hscan : FinderWork.scan data pos w = FinderWork.scan data' pos w := by
    refine List.foldl_ext _ _ _ fun f d hd => ?_
    obtain ⟨h1, h2⟩ := List.mem_range'_1.mp hd
    have hdist : d ≤ dMax w pos := by omega
    rw [FinderWork.consider, FinderWork.consider, h d h1 hdist]
  rw [findLongestMatch, findLongestMatch, hscan]

/-- Settles O24: every comparison of an eligible distance stays inside the window and the lookahead. -/
theorem finderReadsOnlyItsWindow : Obligations.FinderReadsOnlyItsWindow := by
  intro data data' pos w hlen hpos hsame
  refine findLongestMatch_congr fun d h1 hd => ?_
  rw [runLength, runLength, ← hlen]
  refine runFrom_congr fun j _ hj => ?_
  have hj15 : j < min 15 (data.length - pos) := by simpa [maxL] using hj
  have hmod : j % d < d := Nat.mod_lt _ h1
  have hmod' : j % d ≤ j := Nat.mod_le j d
  have htarget : data[pos + j]? = data'[pos + j]? := hsame _ (by omega) (by omega)
  have hsource : data[pos - d + j % d]? = data'[pos - d + j % d]? := hsame _ (by omega) (by omega)
  rw [Bool.eq_iff_iff, tileByteMatches_iff, tileByteMatches_iff, htarget, hsource]

/-! ## Corner cases -/

/-- Where no distance is eligible or fewer than two bytes are left, the finder reports nothing (R146). -/
theorem findLongestMatch_eq_none {data : Bytes} {pos w : Nat} (h : min w pos = 0 ∨ data.length - pos < 2) :
    findLongestMatch data pos w = none := by
  cases e : findLongestMatch data pos w with
  | none => rfl
  | some p =>
    obtain ⟨h1, hd, h2, hlen⟩ := findLongestMatch_bounds (d := p.1) (len := p.2) e
    omega

/-- Inside a run of one byte every distance matches as far as the lookahead goes (R152). -/
theorem runLength_replicate {b : Byte} {n pos d : Nat} (h1 : 1 ≤ d) (hd : d ≤ pos) (hpos : pos ≤ n) :
    runLength (List.replicate n b) pos d = min 15 (n - pos) := by
  have hmax : maxL (List.replicate n b).length pos = min 15 (n - pos) := by simp [maxL]
  have hmatch : TiledMatch (List.replicate n b) pos d (min 15 (n - pos)) := by
    refine tiledMatch_of_copyForward h1 hd fun k hk => ?_
    rw [List.getElem?_replicate_of_lt (by omega), List.getElem?_replicate_of_lt (by omega)]
  exact le_antisymm (hmax ▸ runLength_le_maxL _ pos d) ((tiledMatch_iff_le_runLength d hmax.ge).mp hmatch)

/-- In a run of one byte the nearest distance wins with the longest length (R145, R152). -/
theorem findLongestMatch_replicate {b : Byte} {n pos w : Nat} (h1 : 1 ≤ pos) (hpos : pos + 2 ≤ n) (hw : 1 ≤ w) :
    findLongestMatch (List.replicate n b) pos w = some (1, min 15 (n - pos)) := by
  have hone := runLength_replicate (b := b) (le_refl 1) h1 (by omega : pos ≤ n)
  obtain ⟨-, hshort⟩ | ⟨d, len, e, hd1, hd, -, hrun, hbest⟩ := findLongestMatch_cases (List.replicate n b) pos w
  · have := hshort 1 le_rfl (by omega)
    omega
  · have hlen := runLength_replicate (b := b) hd1 (by omega : d ≤ pos) (by omega : pos ≤ n)
    have hle : d ≤ 1 := (hbest 1 le_rfl (by omega)).2 (by omega)
    rw [e, show d = 1 by omega, show len = min 15 (n - pos) by omega]

/-- Settles O25, by the finder's bounds and the run counts of a run of one byte. -/
theorem finderCornerCases : Obligations.FinderCornerCases := by
  refine fun data w => ⟨findLongestMatch_eq_none (.inl (by omega)), fun pos hpos => findLongestMatch_eq_none (.inr (by omega)),
    fun pos d len h => ?_, fun b n pos h1 hpos hw => findLongestMatch_replicate h1 hpos hw⟩
  obtain ⟨h1, hd, -, -⟩ := findLongestMatch_bounds h
  obtain rfl : d = 1 := by omega
  refine ⟨rfl, fun k hk => ?_⟩
  induction k with
  | zero => exact findLongestMatch_copyForward h hk
  | succ k ih =>
    rw [findLongestMatch_copyForward h hk, ← ih (by omega)]
    rfl

end Sys2Proof.Machine

/-! The token encoder: the frame of its step, the length of its output, and the tokens it emits. -/

namespace Sys2Proof.Machine

/-! ## The frame of an encoder step -/

/-- Settles O27: the step is an encoder step, which keeps IN and W, or the end of the command. -/
theorem encoderStepKeepsInputAndWindow : Obligations.EncoderStepKeepsInputAndWindow := by
  intro s t c hr ha h
  rw [step_of_compressing hr ha] at h
  obtain ⟨hc, c', hstep, rfl⟩ | ⟨hc, rfl⟩ := compressStep_cases h
  · obtain ⟨i, c'', bits, hstep', hin, hw, hcur, hspan, hle, -, henc, -⟩ := encoderStep_spec hc
    obtain rfl : c' = c'' := Option.some.inj (hstep.symm.trans hstep')
    refine ⟨rfl, rfl, .inl ⟨rfl, c', rfl, hin, hw, ⟨bits, henc.symm⟩, by omega, ?_⟩⟩
    rwa [hcur]
  · exact ⟨rfl, rfl, .inr ⟨rfl, hc, _, rfl⟩⟩

/-! ## The parse of a whole input -/

/-- Induction over the parse of a whole input: as `parseFrom_induction`, at position 0. -/
theorem parse_induction (w : Nat) (data : Bytes) {P : Nat → List Instr → Prop} (hend : P data.length [])
    (hmatch : ∀ pos d len ts, pos < data.length → findLongestMatch data pos w = some (d, len) → P (pos + len) ts →
      P pos (.matchTok d len :: ts))
    (hlit : ∀ pos b ts, pos < data.length → findLongestMatch data pos w = none → data[pos]? = some b → P (pos + 1) ts →
      P pos (.lit b :: ts)) :
    P 0 (parse w data) :=
  parseFrom_induction w data hend hmatch hlit data.length 0 (by omega) (by omega)

@[simp] theorem spanSum_nil : spanSum [] = 0 := rfl

@[simp] theorem spanSum_cons (i : Instr) (ts : List Instr) : spanSum (i :: ts) = spanOf i + spanSum ts := by
  simp [spanSum]

@[simp] theorem spanOf_lit (b : Byte) : spanOf (.lit b) = 1 := rfl

@[simp] theorem spanOf_matchTok (d len : Nat) : spanOf (.matchTok d len) = len := rfl

/-! ## Lengths -/

/-- The number of bits of a list of tokens: 9 a literal, 17 a match (R187). -/
def tokenBitSum (ts : List Instr) : Nat :=
  9 * ts.countP isLit + 17 * ts.countP fun i => !isLit i

@[simp] theorem isLit_lit (b : Byte) : isLit (.lit b) = true := rfl

@[simp] theorem isLit_matchTok (d len : Nat) : isLit (.matchTok d len) = false := rfl

@[simp] theorem tokenBitSum_nil : tokenBitSum [] = 0 := rfl

@[simp] theorem tokenBitSum_cons_lit (b : Byte) (ts : List Instr) : tokenBitSum (.lit b :: ts) = 9 + tokenBitSum ts := by
  simp [tokenBitSum, List.countP_cons]
  omega

@[simp] theorem tokenBitSum_cons_matchTok (d len : Nat) (ts : List Instr) :
    tokenBitSum (.matchTok d len :: ts) = 17 + tokenBitSum ts := by
  simp [tokenBitSum]
  omega

theorem length_of_encodeTokens {ts : List Instr} {bits : Bits} (h : encodeTokens ts = some bits) :
    bits.length = tokenBitSum ts := by
  induction ts generalizing bits with
  | nil => cases h; rfl
  | cons i ts ih =>
    obtain ⟨a, b, ha, hb, rfl⟩ := encodeTokens_cons h
    rw [List.length_append, ih hb]
    obtain ⟨b, rfl, hlen⟩ | ⟨d, len, rfl, hlen⟩ := token_form_of_encode ha
    · rw [hlen, tokenBitSum_cons_lit]
    · rw [hlen, tokenBitSum_cons_matchTok]

theorem encodedBits_length (w : Nat) (data : Bytes) : (encodedBits w data).length = tokenBitSum (parse w data) :=
  length_of_encodeTokens (encodeTokens_parse w data)

/-- The tokens of the parse stand for the whole input (R187). -/
theorem spanSum_parse (w : Nat) (data : Bytes) : spanSum (parse w data) = data.length := by
  have h : 0 + spanSum (parse w data) = data.length := by
    refine parse_induction w data (P := fun pos ts => pos + spanSum ts = data.length) rfl ?_ ?_
    · intro pos d len ts _ _ ih
      rw [spanSum_cons, spanOf_matchTok]
      omega
    · intro pos b ts _ _ _ ih
      rw [spanSum_cons, spanOf_lit]
      omega
  omega

/-- A match stands for 2 bytes or more, so 17 bits of it are fewer than 9 a byte (R187). -/
theorem tokenBitSum_parse_le (w : Nat) (data : Bytes) : tokenBitSum (parse w data) ≤ 9 * spanSum (parse w data) := by
  refine parse_induction w data (P := fun _ ts => tokenBitSum ts ≤ 9 * spanSum ts) le_rfl ?_ ?_
  · intro pos d len ts _ hfound ih
    obtain ⟨-, -, hlen, -⟩ := findLongestMatch_bounds hfound
    rw [spanSum_cons, spanOf_matchTok, tokenBitSum_cons_matchTok]
    omega
  · intro pos b ts _ _ _ ih
    rw [spanSum_cons, spanOf_lit, tokenBitSum_cons_lit]
    omega

/-- The output is the encoded bits rounded up to whole bytes (R185, R187). -/
theorem compressBytes_length (w : Nat) (data : Bytes) :
    (compressBytes w data).length = ((encodedBits w data).length + 7) / 8 := by
  have hpad : (padStep (encodedBits w data)).length = (encodedBits w data).length + padCount (encodedBits w data).length := by
    rw [padStep_eq, List.length_append, List.length_replicate]
  rw [compressBytes, packStep, pack_length (padStep_length_mod _), hpad, padCount]
  omega

theorem compressBytes_length_le (w : Nat) (data : Bytes) : (compressBytes w data).length ≤ (9 * data.length + 7) / 8 := by
  have hle := tokenBitSum_parse_le w data
  rw [spanSum_parse, ← encodedBits_length] at hle
  rw [compressBytes_length]
  omega

/-- Settles O31: the bits are counted token by token, the bytes by rounding up. -/
theorem compressedLengthCountsItsTokens : Obligations.CompressedLengthCountsItsTokens :=
  fun w data => ⟨encodedBits_length w data, spanSum_parse w data, compressBytes_length w data,
    compressBytes_length_le w data⟩

/-- Settles O32: the worst case of an input within MAX_INPUT_BYTES is the bound that the capacities are checked against. -/
theorem fittingCapacitiesTakeEveryOutputBack : Obligations.FittingCapacitiesTakeEveryOutputBack := by
  intro p w data hfit hin m hm
  have hlen := compressBytes_length_le w data
  cases hi : p.maxInputBytes with
  | none => simp [consistentCapacities, hi, hm] at hfit
  | some n =>
    have hn : data.length ≤ n := hin n hi
    have hworst : (9 * n + 7) / 8 ≤ m := by simpa [consistentCapacities, hi, hm] using hfit
    omega

/-! ## Canonical tokens -/

/-- A token that stands at a position of the input is canonical there and reaches back no further than the input's start
(R108, R191). -/
def CanonicalAt (w n pos : Nat) (i : Instr) : Prop :=
  i.canonical w (n - pos) = true ∧ ∀ d len, i = .matchTok d len → d ≤ pos

theorem canonicalAt_lit (w n pos : Nat) (b : Byte) : CanonicalAt w n pos (.lit b) :=
  ⟨rfl, fun _ _ h => (by cases h)⟩

/-- What the finder reports is canonical where it is found (R108, R150). -/
theorem canonicalAt_of_found {data : Bytes} {pos w d len : Nat} (h : findLongestMatch data pos w = some (d, len)) :
    CanonicalAt w data.length pos (.matchTok d len) := by
  obtain ⟨h1, hd, h2, hlen⟩ := findLongestMatch_bounds h
  refine ⟨?_, ?_⟩
  · simp only [Instr.canonical, Config.minMatch, Config.lookahead, Bool.and_eq_true, decide_eq_true_eq]
    omega
  · rintro _ _ ⟨⟩
    omega

/-- Where a token stands in a list that begins at `pos`: in front, or behind the front's span. -/
theorem canonicalAt_cons {w n pos : Nat} {j : Instr} {ts : List Instr} (hj : CanonicalAt w n pos j)
    (hts : ∀ before i after, ts = before ++ i :: after → CanonicalAt w n (pos + spanOf j + spanSum before) i) :
    ∀ before i after, j :: ts = before ++ i :: after → CanonicalAt w n (pos + spanSum before) i := by
  intro before i after h
  cases before with
  | nil =>
    obtain ⟨rfl, -⟩ := List.cons.inj h
    exact hj
  | cons k before =>
    rw [List.cons_append, List.cons.injEq] at h
    obtain ⟨rfl, h⟩ := h
    rw [spanSum_cons, ← Nat.add_assoc]
    exact hts before i after h

theorem canonicalAt_of_parse_eq {w : Nat} {data : Bytes} {before after : List Instr} {i : Instr}
    (h : parse w data = before ++ i :: after) : CanonicalAt w data.length (spanSum before) i := by
  rw [← Nat.zero_add (spanSum before)]
  refine parse_induction w data
    (P := fun pos ts => ∀ before i after, ts = before ++ i :: after → CanonicalAt w data.length (pos + spanSum before) i)
    ?_ ?_ ?_ before i after h
  · intro before i after h
    simp at h
  · intro pos d len ts _ hfound ih
    exact canonicalAt_cons (canonicalAt_of_found hfound) ih
  · intro pos b ts _ _ _ ih
    exact canonicalAt_cons (canonicalAt_lit w data.length pos b) ih

/-- Settles O33, by induction over the parse with the bytes before a token as its position. -/
theorem emittedTokensAreCanonical : Obligations.EmittedTokensAreCanonical :=
  fun _ _ _ _ _ h => canonicalAt_of_parse_eq h

/-- Under a window that fits the distance's field, every emitted token is well formed (R108, R191). -/
theorem wellFormed_of_mem_parse {w : Nat} {data : Bytes} (hw : w ≤ 400) {i : Instr} (hi : i ∈ parse w data) :
    i.wellFormed = true := by
  obtain ⟨before, after, h⟩ := List.append_of_mem hi
  obtain ⟨hcanon, -⟩ := canonicalAt_of_parse_eq h
  cases i with
  | matchTok d len =>
    simp only [Instr.canonical, Config.minMatch, Config.lookahead, Bool.and_eq_true, decide_eq_true_eq] at hcanon
    rw [wellFormed_matchTok]
    omega
  | lit => rfl
  | configure => rfl
  | findMatch => rfl
  | compress => rfl
  | decompress => rfl

/-! ## Inputs without repetition -/

/-- A match of 2 bytes repeats two bytes in a row one distance before, so without repetition there is none (R189). -/
theorem findLongestMatch_eq_none_of_noRepetition {data : Bytes}
    (h : ∀ p q, p < q → q + 1 < data.length → ¬ (data[p]? = data[q]? ∧ data[p + 1]? = data[q + 1]?)) (pos w : Nat) :
    findLongestMatch data pos w = none := by
  cases e : findLongestMatch data pos w with
  | none => rfl
  | some p =>
    obtain ⟨d, len⟩ := p
    obtain ⟨h1, hd, h2, hlen⟩ := findLongestMatch_bounds e
    refine absurd ⟨?_, ?_⟩ (h (pos - d) pos (by omega) (by omega))
    · exact (findLongestMatch_copyForward e (k := 0) (by omega)).symm
    · rw [findLongestMatch_copyForward e (k := 1) (by omega), show pos + 1 - d = pos - d + 1 by omega]

theorem parse_of_noRepetition {w : Nat} {data : Bytes} (hnone : ∀ pos, findLongestMatch data pos w = none) :
    parse w data = data.map .lit := by
  refine parse_induction w data (P := fun pos ts => ts = (data.drop pos).map .lit) (by simp) ?_ ?_
  · intro pos d len ts _ hfound _
    rw [hnone pos] at hfound
    cases hfound
  · intro pos b ts hpos _ hb ih
    obtain ⟨_, hb⟩ := List.getElem?_eq_some_iff.mp hb
    rw [ih, List.drop_eq_getElem_cons hpos, List.map_cons, hb]

theorem tokenBitSum_map_lit (data : Bytes) : tokenBitSum (data.map .lit) = 9 * data.length := by
  induction data with
  | nil => rfl
  | cons b data ih =>
    rw [List.map_cons, tokenBitSum_cons_lit, ih, List.length_cons]
    omega

/-- Settles O34: the finder reports nothing anywhere, so every byte is a literal. -/
theorem noRepetitionGivesOneLiteralAByte : Obligations.NoRepetitionGivesOneLiteralAByte := by
  intro w data h
  have hparse := parse_of_noRepetition (w := w) fun pos => findLongestMatch_eq_none_of_noRepetition h pos w
  exact ⟨hparse, by rw [encodedBits_length, hparse, tokenBitSum_map_lit]⟩

end Sys2Proof.Machine

/-! The tokens' execution: where a payload stands, what LIT and MATCH do there, and where they are refused. -/

namespace Sys2Proof.Machine

/-- Settles O43, by the definition of the pop. -/
theorem flagChoosesTheNextState : Obligations.FlagChoosesTheNextState :=
  fun _ => ⟨rfl, rfl⟩

/-! ## Where a payload stands -/

/-- The payload of a token with this flag stands at `p`: the flag is popped and RP is at `p`, or RP is at the flag before `p`
and the 9 bits of R211 are left (R211, R212). -/
def Decoder.PayloadAt (flag : Bool) (dec : Decoder) (p : Nat) : Prop :=
  dec.fsm = Fsm.afterFlag flag ∧ p = dec.rp ∨ dec.fsm = .readFlag ∧ p = dec.rp + 1 ∧ dec.rp + 9 ≤ dec.stream.length

/-- Where the payload stands, a token of its kind is executed from there (R212). -/
theorem atPayload_of_payloadAt {s : State} {dec : Decoder} {flag : Bool} {p : Nat} (ha : s.activity = .decompressing dec)
    (hp : dec.PayloadAt flag p) : s.atPayload flag = some { dec with rp := p, fsm := Fsm.afterFlag flag } := by
  rw [state_atPayload_of_decompressing ha]
  obtain ⟨hf, rfl⟩ | ⟨hf, rfl, hlen⟩ := hp
  · obtain ⟨stream, rp, fsm, out⟩ := dec
    subst hf
    cases flag <;> rfl
  · have hleft : ¬ dec.stream.length - dec.rp < 9 := by omega
    simp [Decoder.atPayload, hf, Decoder.remaining, Decoder.n, hleft, Decoder.popFlag]

/-- A token of a kind is executed only where its payload stands. -/
theorem payloadAt_of_atPayload {s : State} {flag : Bool} {d : Decoder} (h : s.atPayload flag = some d) :
    ∃ dec p, s.activity = .decompressing dec ∧ dec.PayloadAt flag p ∧
      d = { dec with rp := p, fsm := Fsm.afterFlag flag } := by
  obtain ⟨dec, ha, -, -, ⟨hf, hleft, -⟩ | ⟨hf, -⟩⟩ := state_atPayload_eq_some h
  · have hlen : 9 ≤ dec.stream.length - dec.rp := hleft
    have hp : dec.PayloadAt flag (dec.rp + 1) := .inr ⟨hf, rfl, by omega⟩
    exact ⟨dec, _, ha, hp, Option.some.inj (h.symm.trans (atPayload_of_payloadAt ha hp))⟩
  · have hp : dec.PayloadAt flag dec.rp := .inl ⟨hf, rfl⟩
    exact ⟨dec, _, ha, hp, Option.some.inj (h.symm.trans (atPayload_of_payloadAt ha hp))⟩

theorem atPayload_eq_none_of_not_decompressing {s : State} (flag : Bool) (h : ∀ dec, s.activity ≠ .decompressing dec) :
    s.atPayload flag = none := by
  cases e : s.atPayload flag with
  | none => rfl
  | some d =>
    obtain ⟨dec, _, ha, -⟩ := payloadAt_of_atPayload e
    exact absurd ha (h dec)

theorem atPayload_eq_none_of_not_payloadAt {s : State} {dec : Decoder} {flag : Bool} (ha : s.activity = .decompressing dec)
    (h : ∀ p, ¬ dec.PayloadAt flag p) : s.atPayload flag = none := by
  cases e : s.atPayload flag with
  | none => rfl
  | some d =>
    obtain ⟨dec', p, ha', hp, -⟩ := payloadAt_of_atPayload e
    obtain rfl : dec = dec' := Activity.decompressing.inj (ha.symm.trans ha')
    exact absurd hp (h p)

/-! ## Appends and copies by case -/

theorem appendByte_of_room {s : State} {d : Decoder} (k : Nat) (b : Byte) (fsm : Fsm)
    (h : ∀ m, s.params.maxOutputBytes = some m → d.out.length + 1 ≤ m) :
    appendByte k b fsm d s = s.putDecoder { d with out := d.out ++ [b], fsm := fsm } := by
  rw [appendByte, histAppend_of_room b ((beyond_eq_false_iff _ _).mpr h)]

theorem appendByte_of_full {s : State} {d : Decoder} {m : Nat} (k : Nat) (b : Byte) (fsm : Fsm)
    (hm : s.params.maxOutputBytes = some m) (h : m < d.out.length + 1) :
    appendByte k b fsm d s = raise (.capacity (.flagOffset k)) s := by
  rw [appendByte, histAppend_of_full b ((beyond_eq_true_iff _ _).mpr ⟨m, hm, h⟩)]

theorem startCopy_of_outside {d : Nat} {dec : Decoder} (len : Nat) (s : State) (h : d = 0 ∨ dec.out.length < d) :
    startCopy d len dec s = raise (.decodeDistance (dec.rp - 17) d len) s := by
  rw [startCopy, if_pos h]

theorem startCopy_of_inside {d : Nat} {dec : Decoder} (len : Nat) (s : State) (h1 : 1 ≤ d) (h : d ≤ dec.out.length) :
    startCopy d len dec s = s.putDecoder { dec with fsm := Fsm.afterCopy d len } := by
  rw [startCopy, if_neg (by omega), Fsm.afterCopy]
  split <;> rfl

/-! ## LIT and MATCH where their payload stands -/

section
variable {s : State} {dec : Decoder} {p : Nat} (ha : s.activity = .decompressing dec)
include ha

/-- LIT with its 8 bits left pops them and appends its byte, with room or without (R213). -/
theorem exec_lit_of_payloadAt (b : Byte) (hp : dec.PayloadAt false p) (hlen : p + 8 ≤ dec.stream.length) :
    exec (.lit b) s = .next (appendByte (p - 1) b .readFlag { dec with rp := p + 8, fsm := .readLiteral } s) := by
  have hleft : ¬ dec.stream.length - p < 8 := by omega
  simp [exec, execLit, atPayload_of_payloadAt ha hp, Decoder.remaining, Decoder.n, hleft, Fsm.afterFlag]

theorem exec_lit_of_room (b : Byte) (hp : dec.PayloadAt false p) (hlen : p + 8 ≤ dec.stream.length)
    (h : ∀ m, s.params.maxOutputBytes = some m → dec.out.length + 1 ≤ m) :
    exec (.lit b) s = .next (s.putDecoder { dec with rp := p + 8, fsm := .readFlag, out := dec.out ++ [b] }) := by
  rw [exec_lit_of_payloadAt ha b hp hlen]
  exact congrArg Host.Outcome.next (appendByte_of_room _ _ _ h)

theorem exec_lit_of_full {m : Nat} (b : Byte) (hp : dec.PayloadAt false p) (hlen : p + 8 ≤ dec.stream.length)
    (hm : s.params.maxOutputBytes = some m) (h : m < dec.out.length + 1) :
    exec (.lit b) s = .next (raise (.capacity (.flagOffset (p - 1))) s) := by
  rw [exec_lit_of_payloadAt ha b hp hlen]
  exact congrArg Host.Outcome.next (appendByte_of_full _ _ _ hm h)

theorem exec_matchTok_of_short (d len : Nat) (hp : dec.PayloadAt true p) (h : dec.stream.length - p < 16) :
    exec (.matchTok d len) s = .next (raise (.decodeTruncated (p - 1)) s) := by
  simp [exec, execMatchTok, atPayload_of_payloadAt ha hp, Decoder.remaining, Decoder.n, h]

theorem exec_matchTok_of_payloadAt (d len : Nat) (hp : dec.PayloadAt true p) (h : 16 ≤ dec.stream.length - p) :
    exec (.matchTok d len) s = .next (startCopy d len { dec with rp := p + 16, fsm := .readMatch } s) := by
  have hleft : ¬ dec.stream.length - p < 16 := by omega
  simp [exec, execMatchTok, atPayload_of_payloadAt ha hp, Decoder.remaining, Decoder.n, hleft, Fsm.afterFlag]

theorem exec_matchTok_of_outside {d : Nat} (len : Nat) (hp : dec.PayloadAt true p) (h : 16 ≤ dec.stream.length - p)
    (hd : d = 0 ∨ dec.out.length < d) :
    exec (.matchTok d len) s = .next (raise (.decodeDistance (p - 1) d len) s) := by
  rw [exec_matchTok_of_payloadAt ha d len hp h, show p - 1 = p + 16 - 17 by omega]
  exact congrArg Host.Outcome.next (startCopy_of_outside len s hd)

theorem exec_matchTok_of_inside {d : Nat} (len : Nat) (hp : dec.PayloadAt true p) (h : 16 ≤ dec.stream.length - p)
    (h1 : 1 ≤ d) (hd : d ≤ dec.out.length) :
    exec (.matchTok d len) s = .next (s.putDecoder { dec with rp := p + 16, fsm := Fsm.afterCopy d len }) := by
  rw [exec_matchTok_of_payloadAt ha d len hp h]
  exact congrArg Host.Outcome.next (startCopy_of_inside len s h1 hd)

end

/-- Settles O45: at ReadLiteral the payload stands at RP. -/
theorem litAppendsItsByte : Obligations.LitAppendsItsByte :=
  fun _ _ b ha hf hlen =>
    ⟨exec_lit_of_room ha b (.inl ⟨hf, rfl⟩) hlen, fun _ => exec_lit_of_full ha b (.inl ⟨hf, rfl⟩) hlen⟩

/-- Settles O46: at ReadFlag the payload stands one bit behind RP. -/
theorem litFromItsFlag : Obligations.LitFromItsFlag := by
  intro s dec b ha hf hlen
  have hp : dec.PayloadAt false (dec.rp + 1) := .inr ⟨hf, rfl, hlen⟩
  refine ⟨fun h => ?_, fun m hm h => exec_lit_of_full ha b hp hlen hm h⟩
  rw [exec_lit_of_room ha b hp hlen h, ← hf]
  rfl

/-- Settles O47: truncation, distance, copy, in the order of R214's checks. -/
theorem matchChecksThenStartsItsCopy : Obligations.MatchChecksThenStartsItsCopy :=
  fun _ _ d len _ ha hp =>
    ⟨exec_matchTok_of_short ha d len hp, exec_matchTok_of_outside ha len hp, exec_matchTok_of_inside ha len hp⟩

/-- Settles O50, by everything a token can do. -/
theorem tokensOnlyAppendToTheHistory : Obligations.TokensOnlyAppendToTheHistory := by
  intro s t i htok h
  obtain ⟨dec, dec', ha, rfl, hstream, -, hlit, hmatch⟩ | ⟨dec, e, ha, rfl, -⟩ := exec_token_cases htok h
  · refine ⟨rfl, rfl, rfl, rfl, dec, ha, .inl ⟨rfl, dec', rfl, hstream, hlit, hmatch, fun a hlt => ?_⟩⟩
    obtain ⟨b, rfl⟩ | ⟨d, len, rfl⟩ := isToken_cases htok
    · rw [hlit b rfl, List.getElem?_append_left hlt]
    · rw [hmatch d len rfl]
  · exact ⟨rfl, rfl, rfl, rfl, dec, ha, .inr ⟨rfl, e, rfl⟩⟩

/-! ## Tokens without a place -/

theorem exec_lit_of_atPayload_none {s : State} (b : Byte) (h : s.atPayload false = none) :
    exec (.lit b) s = .refused .tokenOutsideStream := by
  simp [exec, execLit, h]

theorem exec_matchTok_of_atPayload_none {s : State} (d len : Nat) (h : s.atPayload true = none) :
    exec (.matchTok d len) s = .refused .tokenOutsideStream := by
  simp [exec, execMatchTok, h]

/-- Where the decoder is neither at a flag nor at the payload of a kind, no payload of that kind stands. -/
theorem not_payloadAt_of_fsm {dec : Decoder} {flag : Bool} (h : dec.fsm ≠ Fsm.afterFlag flag) (h' : dec.fsm ≠ .readFlag)
    (p : Nat) : ¬ dec.PayloadAt flag p := by
  rintro (⟨hf, -⟩ | ⟨hf, -⟩)
  · exact h hf
  · exact h' hf

/-- At a flag with fewer than 9 bits left no payload stands (R211). -/
theorem not_payloadAt_of_short {dec : Decoder} (flag : Bool) (hf : dec.fsm = .readFlag)
    (h : dec.stream.length < dec.rp + 9) (p : Nat) : ¬ dec.PayloadAt flag p := by
  rintro (⟨hf', -⟩ | ⟨-, -, hlen⟩)
  · cases flag <;> simp [hf, Fsm.afterFlag] at hf'
  · omega

/-- Settles O53: a token is refused where its payload does not stand. -/
theorem tokenOutsideItsStateIsRefused : Obligations.TokenOutsideItsStateIsRefused := by
  intro s b d len
  refine ⟨fun h => ⟨exec_lit_of_atPayload_none b (atPayload_eq_none_of_not_decompressing false h),
    exec_matchTok_of_atPayload_none d len (atPayload_eq_none_of_not_decompressing true h)⟩, fun dec ha => ⟨?_, ?_, ?_⟩⟩
  · intro hf
    refine exec_lit_of_atPayload_none b (atPayload_eq_none_of_not_payloadAt ha (not_payloadAt_of_fsm ?_ ?_)) <;>
      obtain hf | ⟨cd, rem, hf⟩ := hf <;> simp [hf, Fsm.afterFlag]
  · intro hf
    refine exec_matchTok_of_atPayload_none d len (atPayload_eq_none_of_not_payloadAt ha (not_payloadAt_of_fsm ?_ ?_)) <;>
      obtain hf | ⟨cd, rem, hf⟩ := hf <;> simp [hf, Fsm.afterFlag]
  · intro hf hlen
    exact ⟨exec_lit_of_atPayload_none b (atPayload_eq_none_of_not_payloadAt ha (not_payloadAt_of_short false hf hlen)),
      exec_matchTok_of_atPayload_none d len (atPayload_eq_none_of_not_payloadAt ha (not_payloadAt_of_short true hf hlen))⟩

end Sys2Proof.Machine

/-! The step: what each action does, what a running DECOMPRESS does next, and what any step changes. -/

namespace Sys2Proof.Machine

/-! ## A step by its action -/

section
variable {s : State}

theorem step_of_endOfStream {out : Bytes} (h : nextAction s = .endOfStream out) : step s = .next (finish (.bytes out) s) := by
  rw [step, h]

theorem step_of_truncated {k : Nat} (h : nextAction s = .truncated k) : step s = .next (raise (.decodeTruncated k) s) := by
  rw [step, h]

theorem step_of_token {i : Instr} (h : nextAction s = .token i) : step s = exec i s := by
  rw [step, h]

theorem step_of_copy {d rem : Nat} {dec : Decoder} (h : nextAction s = .copy d rem dec) :
    step s = copyStep d rem dec s := by
  rw [step, h]

end

/-! ## What DECOMPRESS does next -/

/-- The flag at RP and the bits after it. -/
theorem drop_of_getElem? {s : Bits} {k : Nat} {b : Bool} (h : s[k]? = some b) : s.drop k = b :: s.drop (k + 1) := by
  obtain ⟨hk, rfl⟩ := List.getElem?_eq_some_iff.mp h
  exact List.drop_eq_getElem_cons hk

theorem action_of_decoded {dec : Decoder} {i : Instr} {rest : Bits} (hf : dec.fsm = .readFlag)
    (h : decodeToken (dec.stream.drop dec.rp) = .token i rest) : dec.action = .token i := by
  simp [Decoder.action, hf, Decoder.fetch, h]

theorem action_of_end {dec : Decoder} (hf : dec.fsm = .readFlag) (h : dec.stream.length - dec.rp < 9) :
    dec.action = .endOfStream dec.out := by
  have hdec := decodeToken_short (s := dec.stream.drop dec.rp) (by simpa using h)
  simp [Decoder.action, hf, Decoder.fetch, hdec]

theorem action_of_flag_truncated {dec : Decoder} {n : Nat} (hf : dec.fsm = .readFlag)
    (h : decodeToken (dec.stream.drop dec.rp) = .reject (.truncatedMatch n)) : dec.action = .truncated dec.rp := by
  simp [Decoder.action, hf, Decoder.fetch, h]

theorem action_of_readLiteral {dec : Decoder} (hf : dec.fsm = .readLiteral) :
    dec.action = .token (.lit (BitVec.ofNat 8 (bitRead dec.stream dec.rp 8))) := by
  simp [Decoder.action, hf]

theorem action_of_readMatch {dec : Decoder} (hf : dec.fsm = .readMatch) (h : 16 ≤ dec.stream.length - dec.rp) :
    dec.action = .token (.matchTok (distanceOf (bitRead dec.stream dec.rp 8) (bitRead dec.stream (dec.rp + 8) 8))
      (lengthOf (bitRead dec.stream (dec.rp + 8) 8))) := by
  have hleft : ¬ dec.stream.length - dec.rp < 16 := by omega
  simp [Decoder.action, hf, Decoder.remaining, Decoder.n, hleft]

theorem action_of_readMatch_short {dec : Decoder} (hf : dec.fsm = .readMatch) (h : dec.stream.length - dec.rp < 16) :
    dec.action = .truncated (dec.rp - 1) := by
  simp [Decoder.action, hf, Decoder.remaining, Decoder.n, h]

theorem action_of_copy {dec : Decoder} {cd rem : Nat} (hf : dec.fsm = .copy cd rem) : dec.action = .copy cd rem dec := by
  simp [Decoder.action, hf]

/-- Everything DECOMPRESS does next: it ends, finds a MATCH cut off, executes a token with fields that fit where its payload
stands, or copies a byte (R211 to R214, R243). -/
theorem action_forms (dec : Decoder) :
    (∃ out, dec.action = .endOfStream out) ∨ (∃ k, dec.action = .truncated k) ∨
    (∃ b p, dec.action = .token (.lit b) ∧ dec.PayloadAt false p ∧ (dec.fsm = .readFlag → p + 8 ≤ dec.stream.length)) ∨
    (∃ d len p, dec.action = .token (.matchTok d len) ∧ dec.PayloadAt true p ∧ d < 4096 ∧ len < 16) ∨
    (∃ cd rem, dec.fsm = .copy cd rem ∧ dec.action = .copy cd rem dec) := by
  cases hf : dec.fsm with
  | readFlag =>
    obtain ⟨hs, -⟩ | ⟨r, hr, h8, e⟩ | ⟨r, -, -, -, e⟩ | ⟨r, hr, h16, e⟩ := decodeToken_cases (dec.stream.drop dec.rp)
    · exact .inl ⟨_, action_of_end hf (by simpa using hs)⟩
    · have hlen := congrArg List.length hr
      rw [List.length_drop, List.length_cons] at hlen
      exact .inr (.inr (.inl ⟨_, dec.rp + 1, action_of_decoded hf e, .inr ⟨hf, rfl, by omega⟩, fun _ => by omega⟩))
    · exact .inr (.inl ⟨_, action_of_flag_truncated hf e⟩)
    · have hlen := congrArg List.length hr
      rw [List.length_drop, List.length_cons] at hlen
      obtain ⟨-, hw, -⟩ := encodeOfDecodeIsTheBits _ _ _ e
      obtain ⟨hd, hl⟩ := wellFormed_matchTok.mp hw
      exact .inr (.inr (.inr (.inl ⟨_, _, dec.rp + 1, action_of_decoded hf e, .inr ⟨hf, rfl, by omega⟩, hd, hl⟩)))
  | readLiteral =>
    exact .inr (.inr (.inl ⟨_, dec.rp, action_of_readLiteral hf, .inl ⟨hf, rfl⟩, nofun⟩))
  | readMatch =>
    by_cases h : dec.stream.length - dec.rp < 16
    · exact .inr (.inl ⟨_, action_of_readMatch_short hf h⟩)
    · obtain ⟨hd, hl⟩ := wellFormed_matchTok.mp
        (wellFormed_assembled (bitRead_lt dec.stream dec.rp 8) (bitRead_lt dec.stream (dec.rp + 8) 8))
      exact .inr (.inr (.inr (.inl
        ⟨_, _, dec.rp, action_of_readMatch hf (by omega), .inl ⟨hf, rfl⟩, hd, hl⟩)))
  | copy cd rem => exact .inr (.inr (.inr (.inr ⟨cd, rem, rfl, action_of_copy hf⟩)))

/-! ## The step's own statements -/

/-- Settles O1, by evaluation of the reset state. -/
theorem resetLeavesWindowTwentyAndIdle : Obligations.ResetLeavesWindowTwentyAndIdle :=
  ⟨rfl, rfl⟩

/-- Settles O2: the window is 20 and there are no buffers. -/
theorem resetMeetsTheInvariant : Obligations.ResetMeetsTheInvariant :=
  ⟨by decide, memory_wf_reset⟩

/-- Settles O5, by the action that a requested reset is. -/
theorem resetRequestAbandonsTheCommand : Obligations.ResetRequestAbandonsTheCommand :=
  fun _ h => step_of_reset h

/-- Settles O6, by the step of an idle core and of one that has taken a command. -/
theorem idleStepRunsTheWaitingCommand : Obligations.IdleStepRunsTheWaitingCommand :=
  fun s hr => ⟨fun _ _ ha hw => step_of_waiting hr ha hw,
    fun c ha => (step_of_accepted hr ha).trans (exec_command_of_idle c (asIdle_activity s)).symm,
    fun ha hw => step_of_idle hr ha hw⟩

/-- Settles O7, state by state of the decoder. -/
theorem tokenStepRunsTheDecodedToken : Obligations.TokenStepRunsTheDecodedToken := by
  intro s dec hr ha
  have hn := nextAction_of_decompressing hr ha
  refine ⟨fun i rest hf h => ?_, fun hf => ?_, fun hf hlen => ?_, fun hf hlen => ?_⟩
  · obtain ⟨htok, hw, -⟩ := encodeOfDecodeIsTheBits _ _ _ h
    exact ⟨step_of_token (hn.trans (action_of_decoded hf h)), htok, hw⟩
  · exact step_of_token (hn.trans (action_of_readLiteral hf))
  · exact step_of_token (hn.trans (action_of_readMatch hf (by omega)))
  · exact step_of_truncated (hn.trans (action_of_readMatch_short hf (by omega)))

/-- Settles O44, by the two rejections of the decoder. -/
theorem shortRemainderEndsOrTruncatesTheStream : Obligations.ShortRemainderEndsOrTruncatesTheStream := by
  intro s dec hr ha hf
  have hn := nextAction_of_decompressing hr ha
  refine ⟨fun h => step_of_endOfStream (hn.trans (action_of_end hf h)), fun hflag h9 h17 => ?_⟩
  have hdec := decodeToken_true_short (dec.stream.drop (dec.rp + 1)) (by simp; omega) (by simp; omega)
  rw [← drop_of_getElem? hflag] at hdec
  exact step_of_truncated (hn.trans (action_of_flag_truncated hf hdec))

/-- Settles O49: the copy step reads inside OUT and appends. -/
theorem copyStepAppendsOneByteFromBehind : Obligations.CopyStepAppendsOneByteFromBehind := by
  intro s dec d rem b hr ha hf h1 hd hb
  have hread : histRead dec.out d = some b := (histRead_of_le h1 hd).trans hb
  have hstep : step s = .next (appendByte (dec.rp - 17) b (Fsm.afterCopy d rem) dec s) := by
    rw [step_of_copy ((nextAction_of_decompressing hr ha).trans (action_of_copy hf)), copyStep, hread]
    rfl
  refine ⟨fun h => ?_, fun m hm h => ?_⟩
  · rw [hstep, appendByte_of_room _ _ _ h]
    rfl
  · rw [hstep, appendByte_of_full _ _ _ hm h]
    rfl

/-- A response of an idle core changes nothing but the list of responses. -/
theorem respond_of_idle {s : State} (r : Response) (ha : s.activity = .idle) :
    respond r s = { s with responses := s.responses ++ [r] } := by
  rw [respond, ← ha]

/-- Settles O16, by the check that CONFIGURE makes. -/
theorem configureWritesOnlyALegalWindow : Obligations.ConfigureWritesOnlyALegalWindow := by
  intro s w ha
  have hexec := exec_command_of_idle (.configure w) ha
  refine ⟨fun h1 h2 => ⟨hexec.trans (congrArg _ ?_), ?_⟩, fun h => hexec.trans (congrArg _ ?_)⟩
  · rw [runCommand, runConfigure, if_neg (by simp; omega), finish, respond_of_idle _ (by exact ha)]
    rfl
  · rw [BitVec.toNat_ofNat, Nat.mod_eq_of_lt (by omega)]
  · rw [runCommand, runConfigure, if_pos (by simp; omega), raise, respond_of_idle _ ha]

/-! ## Placed words -/

/-- A placed token's bits stand at RP of a decoder at ReadFlag, with the bits already popped before them (log 10). -/
theorem placeToken_activity (t : Bits) (s : State) :
    ∃ before out, (placeToken t s).activity =
      .decompressing { stream := padded (before ++ t), rp := before.length, fsm := .readFlag, out := out } := by
  unfold placeToken
  split
  · exact ⟨[], [], rfl⟩
  · exact ⟨[], [], rfl⟩
  · exact ⟨[], [], rfl⟩
  · exact ⟨[], [], rfl⟩
  · exact ⟨_, _, rfl⟩

theorem placeToken_resetRequested (t : Bits) (s : State) : (placeToken t s).resetRequested = false := by
  unfold placeToken
  split <;> rfl

/-- An instruction read from a table word is the token at the front of the word's bits (log 11). -/
theorem decodeToken_of_decodeTableWord {nbits w : Nat} {i : Instr} (h : decodeTableWord nbits w = some i) :
    ∃ rest, decodeToken (tokenBits nbits w) = .token i rest := by
  unfold decodeTableWord at h
  split at h
  · cases h
  · split at h
    · cases h
      exact ⟨_, ‹_›⟩
    · cases h

/-- Settles O8: behind the bits already popped the placed word and the pad decode to the word's instruction. -/
theorem placedWordIsExecutedNext : Obligations.PlacedWordIsExecutedNext := by
  intro s nbits w i h
  obtain ⟨rest, hrest⟩ := decodeToken_of_decodeTableWord h
  obtain ⟨before, out, ha⟩ := placeToken_activity (tokenBits nbits w) s
  have hdec : decodeToken ((padded (before ++ tokenBits nbits w)).drop before.length) =
      .token i (rest ++ List.replicate (padCount (before ++ tokenBits nbits w).length) false) := by
    rw [padded, List.append_assoc, List.drop_left]
    exact decodeToken_append _ hrest
  exact step_of_token ((nextAction_of_decompressing (placeToken_resetRequested _ s) ha).trans (action_of_decoded rfl hdec))

/-! ## What a step changes -/

/-- A step that gives no response and writes neither CFG nor the parameters; a busy core leaves the waiting commands too. -/
structure Silent (s t : State) : Prop where
  params         : t.params = s.params
  cfg            : t.cfg = s.cfg
  responses      : t.responses = s.responses
  resetRequested : t.resetRequested = s.resetRequested
  waiting        : s.activity ≠ .idle → t.waiting = s.waiting

theorem silent_putDecoder (s : State) (d : Decoder) : Silent s (s.putDecoder d) :=
  ⟨rfl, rfl, rfl, rfl, fun _ => rfl⟩

/-- A copy step is silent or gives a response of the core's. -/
theorem copyStep_effects {d rem : Nat} {dec : Decoder} {s t : State} (h : copyStep d rem dec s = .next t) :
    Silent s t ∨ ∃ r, t = respond r s ∧ ∀ path dir, r ≠ .err (.ioError path dir) := by
  obtain ⟨b, -, rfl⟩ := copyStep_cases h
  obtain ⟨-, e⟩ | ⟨-, e⟩ := appendByte_cases (dec.rp - 17) b (Fsm.afterCopy d (rem - 1)) dec s <;> rw [e]
  · exact .inl (silent_putDecoder s _)
  · exact .inr ⟨_, rfl, by simp⟩

/-- A token is silent or gives a response of the core's. -/
theorem exec_token_effects {i : Instr} {s t : State} (htok : i.isToken = true) (h : exec i s = .next t) :
    Silent s t ∨ ∃ r, t = respond r s ∧ ∀ path dir, r ≠ .err (.ioError path dir) := by
  obtain ⟨_, dec', -, rfl, -⟩ | ⟨_, e, -, rfl, he⟩ := exec_token_cases htok h
  · exact .inl (silent_putDecoder s dec')
  · exact .inr ⟨.err e, rfl, by simpa using he⟩

/-- The start of a command that was taken is silent, gives a response of the core's, or is a CONFIGURE's write. -/
theorem runCommand_effects (c : Command) (s : State) :
    Silent s (runCommand c s.asIdle) ∨
    (∃ r, runCommand c s.asIdle = respond r s ∧ ∀ path dir, r ≠ .err (.ioError path dir)) ∨
    ∃ w, c = .configure w ∧ 1 ≤ w ∧ w ≤ 400 ∧ runCommand c s.asIdle = finish .done (s.setWindow w) := by
  obtain ⟨w, rfl, h1, h2, e⟩ | ⟨er, e, her, -⟩ | ⟨_, _, -, -, -, e⟩ | ⟨_, -, -, e⟩ | ⟨_, -, -, e⟩ :=
    runCommand_cases c s.asIdle <;> rw [e]
  · exact .inr (.inr ⟨w, rfl, h1, h2, rfl⟩)
  · exact .inr (.inl ⟨.err er, rfl, by simpa using her⟩)
  · exact .inl ⟨rfl, rfl, rfl, rfl, fun _ => rfl⟩
  · exact .inl ⟨rfl, rfl, rfl, rfl, fun _ => rfl⟩
  · exact .inl ⟨rfl, rfl, rfl, rfl, fun _ => rfl⟩

/-- Everything a step changes: it is the reset, or silent, or one response of the core's, or a CONFIGURE's write and its Ok. -/
theorem step_effects {s t : State} (h : step s = .next t) :
    (s.resetRequested = true ∧ t = takeReset s) ∨
    (s.resetRequested = false ∧
      (Silent s t ∨ (∃ r, t = respond r s ∧ ∀ path dir, r ≠ .err (.ioError path dir)) ∨
        ∃ w, s.activity = .accepted (.configure w) ∧ 1 ≤ w ∧ w ≤ 400 ∧ t = finish .done (s.setWindow w))) := by
  obtain hreset | ⟨hr, ⟨ha, ⟨-, rfl⟩ | ⟨c, rest, -, rfl⟩⟩ | ⟨c, ha, rfl⟩ | ⟨f, -, rfl⟩ | ⟨c, ha, hc⟩ | ⟨dec, -, hd⟩⟩ :=
    step_cases h
  · exact .inl hreset
  · exact .inr ⟨hr, .inl ⟨rfl, rfl, rfl, rfl, fun _ => rfl⟩⟩
  · exact .inr ⟨hr, .inl ⟨rfl, rfl, rfl, rfl, fun hbusy => absurd ha hbusy⟩⟩
  · refine .inr ⟨hr, ?_⟩
    obtain hs | hresp | ⟨w, rfl, hw⟩ := runCommand_effects c s
    · exact .inl hs
    · exact .inr (.inl hresp)
    · exact .inr (.inr ⟨w, ha, hw⟩)
  · exact .inr ⟨hr, .inr (.inl ⟨_, rfl, by simp⟩)⟩
  · obtain ⟨-, c', -, rfl⟩ | ⟨-, rfl⟩ := compressStep_cases hc
    · exact .inr ⟨hr, .inl ⟨rfl, rfl, rfl, rfl, fun _ => rfl⟩⟩
    · exact .inr ⟨hr, .inr (.inl ⟨_, rfl, by simp⟩)⟩
  · refine .inr ⟨hr, or_assoc.mp (.inl ?_)⟩
    obtain rfl | ⟨k, rfl⟩ | ⟨i, htok, hi⟩ | ⟨cd, rem, -, hcopy⟩ := hd
    · exact .inr ⟨_, rfl, by simp⟩
    · exact .inr ⟨_, rfl, by simp⟩
    · exact exec_token_effects htok hi
    · exact copyStep_effects hcopy

theorem setWindow_windowSize {w : Nat} (s : State) (h : w ≤ 400) : (s.setWindow w).windowSize = w := by
  rw [State.windowSize, setWindow_cfg, BitVec.toNat_ofNat, Nat.mod_eq_of_lt (by omega)]

/-- Settles O9, by what a step changes. -/
theorem stepGivesAtMostOneResponse : Obligations.StepGivesAtMostOneResponse := by
  intro s t h
  obtain ⟨-, rfl⟩ | ⟨-, hs | ⟨r, rfl, -⟩ | ⟨w, -, -, -, rfl⟩⟩ := step_effects h
  · exact .inl rfl
  · exact .inl hs.responses
  · exact .inr ⟨r, rfl, rfl⟩
  · exact .inr ⟨_, rfl, rfl⟩

/-- Settles O10: the one step with an error response is the response alone. -/
theorem errorResponseDiscardsTheCommand : Obligations.ErrorResponseDiscardsTheCommand := by
  intro s t e h he
  obtain ⟨-, rfl⟩ | ⟨-, hs | ⟨r, rfl, -⟩ | ⟨w, -, -, -, rfl⟩⟩ := step_effects h
  · simp at he
  · simp [hs.responses] at he
  · exact ⟨rfl, rfl, rfl⟩
  · simp at he

/-- Settles O11, by what a step changes. -/
theorem coreNeverAnswersIoError : Obligations.CoreNeverAnswersIoError := by
  intro s t path dir h he
  obtain ⟨-, rfl⟩ | ⟨-, hs | ⟨r, rfl, hio⟩ | ⟨w, -, -, -, rfl⟩⟩ := step_effects h
  · simp at he
  · simp [hs.responses] at he
  · exact hio path dir (by simpa using he)
  · simp at he

/-- Settles O13, by what a step changes. -/
theorem onlyConfigureAndResetWriteTheWindow : Obligations.OnlyConfigureAndResetWriteTheWindow := by
  intro s t h hcfg
  obtain ⟨hr, rfl⟩ | ⟨hr, hs | ⟨r, rfl, -⟩ | ⟨w, ha, h1, h2, rfl⟩⟩ := step_effects h
  · exact .inl ⟨hr, rfl⟩
  · exact absurd hs.cfg hcfg
  · exact absurd rfl hcfg
  · exact .inr ⟨hr, w, ha, h1, h2, setWindow_windowSize s h2⟩

/-- Settles O14: a busy core lets a presented command wait, and what its step changes is no waiting command. -/
theorem busyCoreTakesNoOtherCommand : Obligations.BusyCoreTakesNoOtherCommand := by
  refine fun s hbusy => ⟨fun c => exec_command_of_busy c hbusy, fun t hr h => ?_⟩
  obtain ⟨hr', -⟩ | ⟨-, hs | ⟨r, rfl, -⟩ | ⟨w, ha, -, -, rfl⟩⟩ := step_effects h
  · rw [hr] at hr'
    cases hr'
  · exact ⟨hs.waiting hbusy, hs.params, hs.resetRequested.trans hr, fun _ => hs.cfg⟩
  · exact ⟨rfl, rfl, hr, fun _ => rfl⟩
  · exact ⟨rfl, rfl, hr, fun hno => absurd ha (hno w)⟩

/-- DECOMPRESS has ended, or goes on with S as it was, RP no further back and OUT extended (R38, R85, R240). -/
def EndsOrExtends (dec : Decoder) (s t : State) : Prop :=
  t.activity = .idle ∨ ∃ dec', t = s.putDecoder dec' ∧ dec'.stream = dec.stream ∧ dec.rp ≤ dec'.rp ∧ dec.out <+: dec'.out

/-- A copy step ends the command or appends a byte to OUT, with S and RP as they were (R243). -/
theorem copyStep_decoder {d rem : Nat} {dec : Decoder} {s t : State} (h : copyStep d rem dec s = .next t) :
    EndsOrExtends dec s t := by
  obtain ⟨b, -, rfl⟩ := copyStep_cases h
  obtain ⟨-, e⟩ | ⟨-, e⟩ := appendByte_cases (dec.rp - 17) b (Fsm.afterCopy d (rem - 1)) dec s <;> rw [e]
  · exact .inr ⟨_, rfl, rfl, le_rfl, [b], rfl⟩
  · exact .inl rfl

/-- A token ends the command or appends to OUT what it has to, with S as it was and RP no further back (R213, R214). -/
theorem exec_token_decoder {i : Instr} {dec : Decoder} {s t : State} (ha : s.activity = .decompressing dec)
    (htok : i.isToken = true) (h : exec i s = .next t) :
    EndsOrExtends dec s t := by
  obtain ⟨dec₀, dec', ha', rfl, hstream, hrp, hlit, hmatch⟩ | ⟨_, _, -, rfl, -⟩ := exec_token_cases htok h
  · obtain rfl : dec = dec₀ := Activity.decompressing.inj (ha.symm.trans ha')
    refine .inr ⟨dec', rfl, hstream, hrp, ?_⟩
    obtain ⟨b, rfl⟩ | ⟨d, len, rfl⟩ := isToken_cases htok
    · exact ⟨[b], (hlit b rfl).symm⟩
    · rw [hmatch d len rfl]
  · exact .inl rfl

/-- A step of a running DECOMPRESS ends it, or keeps S, moves RP no further back and extends OUT (R38, R85, R240). -/
theorem step_decoder {dec : Decoder} {s t : State} (ha : s.activity = .decompressing dec) (h : step s = .next t) :
    EndsOrExtends dec s t := by
  cases hr : s.resetRequested with
  | true =>
    rw [step_of_reset hr] at h
    cases h
    exact .inl rfl
  | false =>
    have hn := nextAction_of_decompressing hr ha
    obtain ⟨_, e⟩ | ⟨_, e⟩ | ⟨b, _, e, -⟩ | ⟨d, len, _, e, -⟩ | ⟨cd, rem, -, e⟩ := action_forms dec <;> rw [e] at hn
    · rw [step_of_endOfStream hn] at h
      cases h
      exact .inl rfl
    · rw [step_of_truncated hn] at h
      cases h
      exact .inl rfl
    · exact exec_token_decoder ha rfl (step_of_token hn ▸ h)
    · exact exec_token_decoder ha rfl (step_of_token hn ▸ h)
    · exact copyStep_decoder (step_of_copy hn ▸ h)

/-- Settles O51, by what a step of a running DECOMPRESS does to the decoder. -/
theorem historyIsAppendOnly : Obligations.HistoryIsAppendOnly := by
  intro s t dec dec' h ha ht
  obtain hidle | ⟨dec₀, rfl, hdec⟩ := step_decoder ha h
  · rw [ht] at hidle
    cases hidle
  · obtain rfl : dec₀ = dec' := Activity.decompressing.inj ht
    exact hdec

end Sys2Proof.Machine

/-! The invariant, which every step keeps and inside which no step stops; and what no step reads. -/

namespace Sys2Proof.Machine

/-! ## The decoder's state fits -/

theorem fsmFits_of_readFlag {d : Decoder} (hf : d.fsm = .readFlag) : d.fsmFits = true := by
  simp [Decoder.fsmFits, hf]

theorem fsmFits_iff_of_readLiteral {d : Decoder} (hf : d.fsm = .readLiteral) :
    d.fsmFits = true ↔ 1 ≤ d.rp ∧ 8 ≤ d.stream.length - d.rp := by
  have h : d.fsmFits = true ↔ 1 ≤ d.rp ∧ 8 ≤ d.remaining := by simp [Decoder.fsmFits, hf]
  exact h

theorem fsmFits_iff_of_readMatch {d : Decoder} (hf : d.fsm = .readMatch) : d.fsmFits = true ↔ 1 ≤ d.rp := by
  simp [Decoder.fsmFits, hf]

theorem fsmFits_iff_of_copy {d : Decoder} {cd rem : Nat} (hf : d.fsm = .copy cd rem) :
    d.fsmFits = true ↔ 17 ≤ d.rp ∧ 1 ≤ cd ∧ cd ≤ d.out.length ∧ cd < 4096 ∧ 1 ≤ rem ∧ rem < 16 := by
  simp [Decoder.fsmFits, hf, and_assoc]

/-- After a copy's start or step the decoder fits if the flag and the payload are popped, the distance is inside OUT and the
fields fit (R216, R246). -/
theorem fsmFits_of_afterCopy {d : Decoder} {cd rem : Nat} (hf : d.fsm = Fsm.afterCopy cd rem) (hrp : 17 ≤ d.rp) (h1 : 1 ≤ cd)
    (hcd : cd ≤ d.out.length) (h12 : cd < 4096) (h4 : rem < 16) : d.fsmFits = true := by
  by_cases hrem : rem = 0
  · exact fsmFits_of_readFlag (by rw [hf, Fsm.afterCopy, if_pos hrem])
  · rw [Fsm.afterCopy, if_neg hrem] at hf
    exact (fsmFits_iff_of_copy hf).mpr ⟨hrp, h1, hcd, h12, by omega, h4⟩

/-- Where a payload stands the flag is behind it, and inside S (R212). -/
theorem payloadAt_bounds {p : Params} {dec : Decoder} {k : Nat} {flag : Bool} (hfit : dec.fits p = true)
    (hp : dec.PayloadAt flag k) : 1 ≤ k ∧ k ≤ dec.stream.length := by
  obtain ⟨-, -, hrp, -, hfsm⟩ := (decoder_fits_iff p dec).mp hfit
  obtain ⟨hf, rfl⟩ | ⟨-, rfl, hlen⟩ := hp
  · cases flag with
    | false => exact ⟨((fsmFits_iff_of_readLiteral hf).mp hfsm).1, hrp⟩
    | true => exact ⟨(fsmFits_iff_of_readMatch hf).mp hfsm, hrp⟩
  · omega

/-- Where a literal's payload stands, its 8 bits are left (R211, R213). -/
theorem literal_payload_fits {p : Params} {dec : Decoder} {k : Nat} (hfit : dec.fits p = true) (hp : dec.PayloadAt false k)
    (hflag : dec.fsm = .readFlag → k + 8 ≤ dec.stream.length) : k + 8 ≤ dec.stream.length := by
  obtain ⟨-, -, hrp, -, hfsm⟩ := (decoder_fits_iff p dec).mp hfit
  obtain ⟨hf, rfl⟩ | ⟨hf, -, -⟩ := hp
  · obtain ⟨-, hleft⟩ := (fsmFits_iff_of_readLiteral hf).mp hfsm
    omega
  · exact hflag hf

/-! ## Every step of DECOMPRESS keeps the buffers' form -/

section
variable {s t : State} {dec : Decoder} (ha : s.activity = .decompressing dec) (hm : Memory.wf s = true)
include ha hm

theorem fits_of_memory_wf : dec.fits s.params = true :=
  memory_wf_of_decompressing ha ▸ hm

theorem memory_wf_exec_lit {b : Byte} {p : Nat} (hp : dec.PayloadAt false p) (hlen : p + 8 ≤ dec.stream.length)
    (h : exec (.lit b) s = .next t) : Memory.wf t = true := by
  rw [exec_lit_of_payloadAt ha b hp hlen] at h
  cases h
  exact memory_wf_appendByte ha hm _ _ _ rfl hlen (fsmFits_of_readFlag rfl)

theorem memory_wf_exec_matchTok {d len p : Nat} (hp : dec.PayloadAt true p) (hd : d < 4096) (hlen : len < 16)
    (h : exec (.matchTok d len) s = .next t) : Memory.wf t = true := by
  obtain ⟨hp1, -⟩ := payloadAt_bounds (fits_of_memory_wf ha hm) hp
  by_cases hleft : dec.stream.length - p < 16
  · rw [exec_matchTok_of_short ha d len hp hleft] at h
    cases h
    exact memory_wf_raise _ s
  · by_cases hin : 1 ≤ d ∧ d ≤ dec.out.length
    · rw [exec_matchTok_of_inside ha len hp (by omega) hin.1 hin.2] at h
      cases h
      refine memory_wf_putDecoder ha hm rfl (by show p + 16 ≤ _; omega) rfl
        (fsmFits_of_afterCopy rfl (by show 17 ≤ p + 16; omega) hin.1 hin.2 hd hlen)
    · rw [exec_matchTok_of_outside ha len hp (by omega) (by omega)] at h
      cases h
      exact memory_wf_raise _ s

theorem memory_wf_copyStep {cd rem : Nat} (hf : dec.fsm = .copy cd rem) (h : copyStep cd rem dec s = .next t) :
    Memory.wf t = true := by
  obtain ⟨-, -, hrp, -, hfsm⟩ := (decoder_fits_iff _ dec).mp (fits_of_memory_wf ha hm)
  obtain ⟨h17, h1, hcd, h12, -, hrem⟩ := (fsmFits_iff_of_copy hf).mp hfsm
  obtain ⟨b, -, rfl⟩ := copyStep_cases h
  refine memory_wf_appendByte ha hm _ b _ rfl hrp (fsmFits_of_afterCopy rfl h17 h1 ?_ h12 (by omega))
  rw [List.length_append]
  omega

theorem memory_wf_step_of_decompressing (hr : s.resetRequested = false) (h : step s = .next t) : Memory.wf t = true := by
  have hn := nextAction_of_decompressing hr ha
  obtain ⟨_, e⟩ | ⟨_, e⟩ | ⟨b, p, e, hp, hlen⟩ | ⟨d, len, p, e, hp, hd, hlen⟩ | ⟨cd, rem, hf, e⟩ := action_forms dec <;>
    rw [e] at hn
  · rw [step_of_endOfStream hn] at h
    cases h
    exact memory_wf_respond _ s
  · rw [step_of_truncated hn] at h
    cases h
    exact memory_wf_raise _ s
  · exact memory_wf_exec_lit ha hm hp (literal_payload_fits (fits_of_memory_wf ha hm) hp hlen) (step_of_token hn ▸ h)
  · exact memory_wf_exec_matchTok ha hm hp hd hlen (step_of_token hn ▸ h)
  · exact memory_wf_copyStep ha hm hf (step_of_copy hn ▸ h)

/-- A step of DECOMPRESS with its buffers in form answers: a token stands where it is executed with its bits left, and a
copy reads inside OUT (R213, R246). -/
theorem step_answers_of_decompressing (hr : s.resetRequested = false) : ∃ t, step s = .next t := by
  have hfit := fits_of_memory_wf ha hm
  have hn := nextAction_of_decompressing hr ha
  obtain ⟨_, e⟩ | ⟨_, e⟩ | ⟨b, p, e, hp, hlen⟩ | ⟨d, len, p, e, hp, hd, hlen⟩ | ⟨cd, rem, hf, e⟩ := action_forms dec <;>
    rw [e] at hn
  · exact ⟨_, step_of_endOfStream hn⟩
  · exact ⟨_, step_of_truncated hn⟩
  · exact ⟨_, (step_of_token hn).trans (exec_lit_of_payloadAt ha b hp (literal_payload_fits hfit hp hlen))⟩
  · by_cases hleft : dec.stream.length - p < 16
    · exact ⟨_, (step_of_token hn).trans (exec_matchTok_of_short ha d len hp hleft)⟩
    · exact ⟨_, (step_of_token hn).trans (exec_matchTok_of_payloadAt ha d len hp (by omega))⟩
  · obtain ⟨-, -, -, -, hfsm⟩ := (decoder_fits_iff _ dec).mp hfit
    obtain ⟨-, h1, hcd, -⟩ := (fsmFits_iff_of_copy hf).mp hfsm
    have hread : histRead dec.out cd = some dec.out[dec.out.length - cd] := by
      rw [histRead_of_le h1 hcd, List.getElem?_eq_getElem (by omega)]
    exact ⟨_, (step_of_copy hn).trans (by rw [copyStep, hread])⟩

end

/-! ## Every step keeps the invariant -/

/-- A command that starts sets its buffers up in form (R272 to R274). -/
theorem memory_wf_runCommand (c : Command) (s : State) : Memory.wf (runCommand c s.asIdle) = true := by
  obtain ⟨w, -, -, -, e⟩ | ⟨er, e, -⟩ | ⟨data, pos, -, hb, hpos, e⟩ | ⟨data, -, hb, e⟩ | ⟨bytes, -, hb, e⟩ :=
    runCommand_cases c s.asIdle <;> rw [e]
  · exact memory_wf_respond _ _
  · exact memory_wf_raise _ _
  · exact memory_wf_putSearch hb hpos
  · exact memory_wf_putCompressor_start hb
  · exact memory_wf_putDecoder_start (by rw [unpack_length_eq]; omega)
      (by rwa [unpack_length_eq, Nat.mul_div_cancel_left _ (by omega)])

theorem memory_wf_compressStep {s t : State} {c : Compressor} (ha : s.activity = .compressing c) (hm : Memory.wf s = true)
    (h : compressStep c s = .next t) : Memory.wf t = true := by
  obtain ⟨hc, c', hstep, rfl⟩ | ⟨-, rfl⟩ := compressStep_cases h
  · obtain ⟨i, c'', _, hstep', hin, hw, hcur, -, hle, -⟩ := encoderStep_spec hc
    obtain rfl : c' = c'' := Option.some.inj (hstep.symm.trans hstep')
    exact memory_wf_putCompressor ha hm hin hw (hcur ▸ hle)
  · exact memory_wf_respond _ _

theorem memory_wf_step {s t : State} (hm : Memory.wf s = true) (h : step s = .next t) : Memory.wf t = true := by
  obtain ⟨-, rfl⟩ | ⟨hr, ⟨ha, ⟨-, rfl⟩ | ⟨c, rest, -, rfl⟩⟩ | ⟨c, -, rfl⟩ | ⟨f, -, rfl⟩ | ⟨c, ha, hc⟩ | ⟨dec, ha, -⟩⟩ :=
    step_cases h
  · exact memory_wf_takeReset s
  · exact hm
  · exact memory_wf_accept c rest s
  · exact memory_wf_runCommand c s
  · exact memory_wf_respond _ s
  · exact memory_wf_compressStep ha hm hc
  · exact memory_wf_step_of_decompressing ha hm hr h

/-- The window is legal after every step: it is as it was, 20, or a value that CONFIGURE has checked (R31). -/
theorem windowLegal_step {s t : State} (hw : 1 ≤ s.windowSize ∧ s.windowSize ≤ 400) (h : step s = .next t) :
    1 ≤ t.windowSize ∧ t.windowSize ≤ 400 := by
  by_cases hcfg : t.cfg = s.cfg
  · rwa [State.windowSize, hcfg]
  · obtain ⟨-, e⟩ | ⟨-, w, -, h1, h2, e⟩ := onlyConfigureAndResetWriteTheWindow s t h hcfg <;> omega

/-- Settles O3: the window and the buffers, each by what a step can be. -/
theorem everyStepKeepsTheInvariant : Obligations.EveryStepKeepsTheInvariant :=
  fun _ _ hinv h => ⟨windowLegal_step hinv.windowLegal h, memory_wf_step hinv.memoryFits h⟩

/-- Settles O4: only an encoder step outside IN, a token out of its place and a copy from outside OUT could stop. -/
theorem noStepStopsInsideTheInvariant : Obligations.NoStepStopsInsideTheInvariant := by
  intro s hinv
  cases hr : s.resetRequested with
  | true => exact ⟨_, step_of_reset hr⟩
  | false =>
    cases ha : s.activity with
    | idle =>
      cases hw : s.waiting with
      | nil => exact ⟨_, step_of_idle hr ha hw⟩
      | cons c rest => exact ⟨_, step_of_waiting hr ha hw⟩
    | accepted c => exact ⟨_, step_of_accepted hr ha⟩
    | finding f => exact ⟨_, step_of_finding hr ha⟩
    | compressing c =>
      by_cases hc : c.cur < c.n
      · obtain ⟨_, c', _, hstep, -⟩ := encoderStep_spec hc
        exact ⟨_, step_of_encoderStep hr ha hc hstep⟩
      · exact ⟨_, (step_of_compressing hr ha).trans (by rw [compressStep, if_neg hc])⟩
    | decompressing dec => exact step_answers_of_decompressing ha hinv.memoryFits hr

/-! ## What no step reads -/

/-- An update of the state that neither the decoder nor the replay engine reads or writes. -/
structure Unseen (g : State → State) : Prop where
  params     : ∀ s, (g s).params = s.params
  activity   : ∀ s, (g s).activity = s.activity
  respond    : ∀ r s, respond r (g s) = g (respond r s)
  putDecoder : ∀ d s, (g s).putDecoder d = g (s.putDecoder d)

section
variable {g : State → State} (hg : Unseen g)
include hg

theorem Unseen.atPayload (flag : Bool) (s : State) : (g s).atPayload flag = s.atPayload flag := by
  rw [State.atPayload, hg.activity, State.atPayload]

theorem Unseen.appendByte (k : Nat) (b : Byte) (fsm : Fsm) (d : Decoder) (s : State) :
    appendByte k b fsm d (g s) = g (appendByte k b fsm d s) := by
  simp only [Machine.appendByte, hg.params]
  split
  · exact hg.respond _ s
  · exact hg.putDecoder _ s

theorem Unseen.startCopy (d len : Nat) (dec : Decoder) (s : State) :
    startCopy d len dec (g s) = g (startCopy d len dec s) := by
  simp only [Machine.startCopy]
  split
  · exact hg.respond _ s
  · split
    · exact hg.putDecoder _ s
    · exact hg.putDecoder _ s

theorem Unseen.exec_lit {b : Byte} {s t : State} (h : exec (.lit b) s = .next t) : exec (.lit b) (g s) = .next (g t) := by
  obtain ⟨d, hd, h8, rfl⟩ := execLit_cases h
  have hleft : ¬ d.remaining < 8 := by omega
  simp [exec, execLit, hg.atPayload, hd, hleft, hg.appendByte]

theorem Unseen.exec_matchTok {d len : Nat} {s t : State} (h : exec (.matchTok d len) s = .next t) :
    exec (.matchTok d len) (g s) = .next (g t) := by
  obtain ⟨dec, hd, ⟨hleft, rfl⟩ | ⟨hleft, rfl⟩⟩ := execMatchTok_cases h
  · simp [exec, execMatchTok, hg.atPayload, hd, hleft, raise, hg.respond]
  · have hleft' : ¬ dec.remaining < 16 := by omega
    simp [exec, execMatchTok, hg.atPayload, hd, hleft', hg.startCopy]

theorem Unseen.copyStep {d rem : Nat} {dec : Decoder} {s t : State} (h : copyStep d rem dec s = .next t) :
    copyStep d rem dec (g s) = .next (g t) := by
  obtain ⟨b, hb, rfl⟩ := copyStep_cases h
  simp [Machine.copyStep, hb, hg.appendByte]

/-- A step of DECOMPRESS does the same with and without the update. -/
theorem Unseen.step_of_decompressing {s t : State} {dec : Decoder} (hr : s.resetRequested = false)
    (hr' : (g s).resetRequested = false) (ha : s.activity = .decompressing dec) (h : step s = .next t) :
    step (g s) = .next (g t) := by
  have hn := nextAction_of_decompressing hr ha
  have hn' := nextAction_of_decompressing hr' ((hg.activity s).trans ha)
  obtain ⟨_, e⟩ | ⟨_, e⟩ | ⟨b, p, e, -⟩ | ⟨d, len, p, e, -⟩ | ⟨cd, rem, hf, e⟩ := action_forms dec <;>
    rw [e] at hn hn'
  · rw [step_of_endOfStream hn] at h
    cases h
    exact (step_of_endOfStream hn').trans (congrArg Host.Outcome.next (hg.respond _ s))
  · rw [step_of_truncated hn] at h
    cases h
    exact (step_of_truncated hn').trans (congrArg Host.Outcome.next (hg.respond _ s))
  · exact (step_of_token hn').trans (hg.exec_lit (step_of_token hn ▸ h))
  · exact (step_of_token hn').trans (hg.exec_matchTok (step_of_token hn ▸ h))
  · exact (step_of_copy hn').trans (hg.copyStep (step_of_copy hn ▸ h))

end

theorem unseen_cfg (c : BitVec 9) : Unseen fun s => { s with cfg := c } :=
  ⟨fun _ => rfl, fun _ => rfl, fun _ _ => rfl, fun _ _ => rfl⟩

/-- Settles O52: CFG is unseen by the decoder, and the distance is checked against OUT alone. -/
theorem decoderIgnoresTheWindow : Obligations.DecoderIgnoresTheWindow := by
  refine fun s dec hr ha => ⟨fun t c h => (unseen_cfg c).step_of_decompressing hr hr ha h,
    fun d len p hp hlen h1 _ hd => exec_matchTok_of_inside ha len ?_ hlen h1 hd⟩
  obtain hp | ⟨hf, rfl⟩ := hp
  · exact .inl hp
  · exact .inr ⟨hf, rfl, by omega⟩

/-- The state with other responses before those already given. -/
def State.withEarlier (old : List Response) (s : State) : State :=
  { s with responses := old ++ s.responses }

theorem respond_withEarlier (old : List Response) (r : Response) (s : State) :
    respond r (s.withEarlier old) = (respond r s).withEarlier old := by
  simp [respond, State.withEarlier]

theorem unseen_withEarlier (old : List Response) : Unseen (State.withEarlier old) :=
  ⟨fun _ => rfl, fun _ => rfl, respond_withEarlier old, fun _ _ => rfl⟩

/-- The start of a command does not read the responses already given. -/
theorem runCommand_withEarlier (old : List Response) (c : Command) (s : State) :
    runCommand c (s.withEarlier old) = (runCommand c s).withEarlier old := by
  have hresp := fun r => respond_withEarlier old r s
  cases c with
  | configure w =>
    simp only [runCommand, runConfigure, apply_ite (State.withEarlier old)]
    exact ite_congr rfl (fun _ => hresp _) fun _ => respond_withEarlier old _ (s.setWindow w)
  | findMatch data pos =>
    simp only [runCommand, runFindMatch, apply_ite (State.withEarlier old)]
    exact ite_congr rfl (fun _ => hresp _) fun _ => ite_congr rfl (fun _ => hresp _) fun _ => rfl
  | compress data =>
    simp only [runCommand, runCompress, apply_ite (State.withEarlier old)]
    exact ite_congr rfl (fun _ => hresp _) fun _ => rfl
  | decompress bytes =>
    simp only [runCommand, runDecompress, apply_ite (State.withEarlier old)]
    exact ite_congr rfl (fun _ => hresp _) fun _ => rfl

/-- A step of COMPRESS does not read the responses already given. -/
theorem compressStep_withEarlier (old : List Response) {c : Compressor} {s t : State} (h : compressStep c s = .next t) :
    compressStep c (s.withEarlier old) = .next (t.withEarlier old) := by
  obtain ⟨hc, c', hstep, rfl⟩ | ⟨hc, rfl⟩ := compressStep_cases h
  · rw [compressStep, if_pos hc, hstep]
    rfl
  · rw [compressStep, if_neg (by omega), finish, respond_withEarlier]
    rfl

/-- Settles O12, by what a step can be. -/
theorem earlierResponsesAreNeverRead : Obligations.EarlierResponsesAreNeverRead := by
  intro s t old h
  show step (s.withEarlier old) = .next (t.withEarlier old)
  obtain ⟨hr, rfl⟩ | ⟨hr, ⟨ha, ⟨hw, rfl⟩ | ⟨c, rest, hw, rfl⟩⟩ | ⟨c, ha, rfl⟩ | ⟨f, ha, rfl⟩ | ⟨c, ha, hc⟩ | ⟨dec, ha, -⟩⟩ :=
    step_cases h
  · exact step_of_reset (s := s.withEarlier old) hr
  · exact step_of_idle (s := t.withEarlier old) hr ha hw
  · exact step_of_waiting (s := s.withEarlier old) hr ha hw
  · exact (step_of_accepted (s := s.withEarlier old) hr ha).trans
      (congrArg Host.Outcome.next (runCommand_withEarlier old c s.asIdle))
  · exact (step_of_finding (s := s.withEarlier old) hr ha).trans
      (congrArg Host.Outcome.next (respond_withEarlier old _ s))
  · exact (step_of_compressing (s := s.withEarlier old) hr ha).trans (compressStep_withEarlier old hc)
  · exact (unseen_withEarlier old).step_of_decompressing hr hr ha h

end Sys2Proof.Machine

/-! The replay engine and DECOMPRESS_CORE: the copy tiles the history, and decompression undoes compression. -/

namespace Sys2Proof.Machine

/-! ## MATCH_COPY -/

section
variable {p : Params} {out : Bytes} {d : Nat} (flagOffset : Nat) (h1 : 1 ≤ d) (hd : d ≤ out.length)
include h1 hd

/-- With room for it, the copy goes on with the tiling's next byte appended (R243, R245). -/
theorem matchCopy_succ_of_room (len k : Nat) (h : ∀ m, p.maxOutputBytes = some m → out.length + (k + 1) ≤ m) :
    matchCopy p flagOffset d (len + 1) (out ++ tile out d k) = matchCopy p flagOffset d len (out ++ tile out d (k + 1)) := by
  have hroom : beyond p.maxOutputBytes ((out ++ tile out d k).length + 1) = false := by
    rw [beyond_eq_false_iff, List.length_append, tile_length]
    exact fun m hm => by have := h m hm; omega
  simp only [matchCopy, histRead_tile k h1 hd, histAppend_of_room _ hroom, List.append_assoc, tile_succ]

/-- Without room for the tiling's next byte, the copy ends with CAPACITY (R248). -/
theorem matchCopy_succ_of_full {m : Nat} (len k : Nat) (hm : p.maxOutputBytes = some m) (h : m < out.length + (k + 1)) :
    matchCopy p flagOffset d (len + 1) (out ++ tile out d k) = .error (.capacity (.flagOffset flagOffset)) := by
  have hfull : beyond p.maxOutputBytes ((out ++ tile out d k).length + 1) = true := by
    rw [beyond_eq_true_iff, List.length_append, tile_length]
    exact ⟨m, hm, by omega⟩
  simp only [matchCopy, histRead_tile k h1 hd, histAppend_of_full _ hfull]

/-- After `k` bytes of the tiling, `len` more of them follow (R245). -/
theorem matchCopy_append_tile (len k : Nat) (h : ∀ m, p.maxOutputBytes = some m → out.length + (k + len) ≤ m) :
    matchCopy p flagOffset d len (out ++ tile out d k) = .ok (out ++ tile out d (k + len)) := by
  induction len generalizing k with
  | zero => rfl
  | succ len ih =>
    rw [matchCopy_succ_of_room flagOffset h1 hd len k fun m hm => by have := h m hm; omega,
      ih (k + 1) fun m hm => by have := h m hm; omega, show k + 1 + len = k + (len + 1) by omega]

theorem matchCopy_of_room {len : Nat} (h : ∀ m, p.maxOutputBytes = some m → out.length + len ≤ m) :
    matchCopy p flagOffset d len out = .ok (out ++ tile out d len) := by
  have hcopy := matchCopy_append_tile flagOffset h1 hd len 0 fun m hm => by have := h m hm; omega
  rwa [tile_zero, List.append_nil, Nat.zero_add] at hcopy

/-- Where OUT fills up within the copy, the copy ends with CAPACITY (R248). -/
theorem matchCopy_append_tile_of_full {m : Nat} (hm : p.maxOutputBytes = some m) (len k : Nat) (hk : out.length + k ≤ m)
    (h : m < out.length + (k + len)) :
    matchCopy p flagOffset d len (out ++ tile out d k) = .error (.capacity (.flagOffset flagOffset)) := by
  induction len generalizing k with
  | zero => omega
  | succ len ih =>
    by_cases hroom : out.length + (k + 1) ≤ m
    · rw [matchCopy_succ_of_room flagOffset h1 hd len k fun m' hm' => by
        obtain rfl : m = m' := Option.some.inj (hm.symm.trans hm')
        exact hroom]
      exact ih (k + 1) hroom (by omega)
    · exact matchCopy_succ_of_full flagOffset h1 hd len k hm (by omega)

theorem matchCopy_of_full {m len : Nat} (hm : p.maxOutputBytes = some m) (hout : out.length ≤ m) (h : m < out.length + len) :
    matchCopy p flagOffset d len out = .error (.capacity (.flagOffset flagOffset)) := by
  have hcopy := matchCopy_append_tile_of_full flagOffset h1 hd hm len 0 hout (by omega)
  rwa [tile_zero, List.append_nil] at hcopy

end

theorem getElem?_tile {out : Bytes} {d len k : Nat} (hk : k < len) :
    (tile out d len)[k]? = some (out.getD (out.length - d + k % d) 0#8) := by
  rw [tile, List.getElem?_map, List.getElem?_range hk]
  rfl

/-- The first byte of a tiling is in the history, and so is every other (R245, R246). -/
theorem getElem?_tile_eq {out : Bytes} {d len k : Nat} (h1 : 1 ≤ d) (hd : d ≤ out.length) (hk : k < len) :
    (tile out d len)[k]? = out[out.length - d + k % d]? := by
  have hmod : k % d < d := Nat.mod_lt _ h1
  rw [getElem?_tile hk, List.getD_eq_getElem?_getD, List.getElem?_eq_getElem (by omega)]
  rfl

/-- Up to the distance the tiling is the plain slice (R244). -/
theorem tile_eq_slice {out : Bytes} {d len : Nat} (h1 : 1 ≤ d) (hd : d ≤ out.length) (hlen : len ≤ d) :
    tile out d len = (out.drop (out.length - d)).take len := by
  refine List.ext_getElem? fun k => ?_
  by_cases hk : k < len
  · rw [getElem?_tile_eq h1 hd hk, List.getElem?_take_of_lt hk, List.getElem?_drop, Nat.mod_eq_of_lt (by omega)]
  · rw [List.getElem?_eq_none (by rw [tile_length]; omega), List.getElem?_take_eq_none (by omega)]

/-- Beyond the distance the tiling is longer than any slice (R244). -/
theorem tile_ne_slice {out : Bytes} {d len : Nat} (hd : d ≤ out.length) (hlen : d < len) :
    tile out d len ≠ (out.drop (out.length - d)).take len := by
  intro h
  have := congrArg List.length h
  rw [tile_length, List.length_take, List.length_drop] at this
  omega

/-- Settles O54: the copy is the tiling, which is a slice only up to the distance. -/
theorem matchCopyTilesTheHistory : Obligations.MatchCopyTilesTheHistory := by
  intro p flagOffset d len out h1 hd
  refine ⟨fun h => ?_, fun m hm hout h => matchCopy_of_full flagOffset h1 hd hm hout h⟩
  have hcopy := matchCopy_of_room flagOffset h1 hd h
  refine ⟨hcopy, fun hlen => ?_, fun hlen he => ?_⟩
  · rw [hcopy, tile_eq_slice h1 hd hlen]
  · rw [hcopy] at he
    exact tile_ne_slice hd hlen (List.append_cancel_left (Except.ok.inj he))

/-- Settles O48: MATCH starts the copy, and the copy steps carry out MATCH_COPY. -/
theorem matchRunsItsWholeCopy : Obligations.MatchRunsItsWholeCopy := by
  intro s dec d len p hr ha hp hlen h1 hd hroom
  have hpay : dec.PayloadAt true p := by
    obtain hp | ⟨hf, rfl⟩ := hp
    · exact .inl hp
    · exact .inr ⟨hf, rfl, by omega⟩
  refine ⟨_, exec_matchTok_of_inside ha len hpay hlen h1 hd, ?_⟩
  exact (copy_runs (s := s.putDecoder { dec with rp := p + 16, fsm := Fsm.afterCopy d len }) hr h1 rfl rfl hd).1 _
    (matchCopy_of_room _ h1 hd hroom)

/-! ## One token -/

/-- The number of bits of a token (R101); a command has none (R114). -/
def widthOf : Instr → Nat
  | .lit _ => 9
  | .matchTok _ _ => 17
  | .configure _ => 0
  | .findMatch _ _ => 0
  | .compress _ => 0
  | .decompress _ => 0

theorem length_of_encode {i : Instr} {bits : Bits} (h : encode i = some bits) : bits.length = widthOf i := by
  obtain ⟨b, rfl, hlen⟩ | ⟨d, len, rfl, hlen⟩ := token_form_of_encode h
  · exact hlen
  · exact hlen

/-- The effect of one token on OUT, its flag at `offset` (R218, R219); a command is no token. -/
def replayToken (p : Params) (offset : Nat) : Instr → Bytes → Except Error Bytes
  | .lit b, out => replayLit p offset b out
  | .matchTok d len, out => replayMatch p offset d len out
  | .configure _, out => .ok out
  | .findMatch _ _, out => .ok out
  | .compress _, out => .ok out
  | .decompress _, out => .ok out

theorem replay_nil (p : Params) (offset : Nat) (out : Bytes) : replay p offset [] out = .ok out := by
  rw [replay]

/-- A token is replayed and then the others, unless it ends in an error (R218 to R220). -/
theorem replay_cons {i : Instr} (p : Params) (offset : Nat) (ts : List Instr) (out : Bytes) (h : i.isToken = true) :
    replay p offset (i :: ts) out = (replayToken p offset i out).bind (replay p (offset + widthOf i) ts) := by
  obtain ⟨b, rfl⟩ | ⟨d, len, rfl⟩ := isToken_cases h <;> rw [replay, replayToken]
  · cases replayLit p offset b out <;> rfl
  · cases replayMatch p offset d len out <;> rfl

/-- The flag at a bit offset, and reads behind it. -/
theorem bitRead_of_drop {s r : Bits} {k : Nat} {b : Bool} (h : s.drop k = b :: r) :
    bitRead s k 1 = b.toNat ∧ ∀ j w, bitRead s (k + 1 + j) w = bitRead r j w := by
  have hread : ∀ j w, bitRead s (k + j) w = bitRead (b :: r) j w := fun j w => by rw [← h, bitRead_drop]
  refine ⟨?_, fun j w => ?_⟩
  · rw [← Nat.add_zero k, hread]
    cases b <;> rfl
  · rw [Nat.add_assoc, hread, Nat.add_comm 1 j]
    rfl

theorem length_of_drop {s r : Bits} {k : Nat} {b : Bool} (h : s.drop k = b :: r) : s.length - (k + 1) = r.length ∧
    s.length - k = r.length + 1 := by
  have hlen := congrArg List.length h
  rw [List.length_drop, List.length_cons] at hlen
  omega

/-! ## DECOMPRESS_CORE by what the decoder reads at RP -/

section
variable (p : Params) {s : Bits} {rp : Nat} (out : Bytes)

theorem decompressFrom_of_short (fuel : Nat) (h : s.length - rp < 9) : decompressFrom p s fuel rp out = .ok out := by
  cases fuel with
  | zero => rfl
  | succ fuel => rw [decompressFrom, if_pos h]

theorem decompressFrom_of_truncated {n : Nat} (fuel : Nat) (h : decodeToken (s.drop rp) = .reject (.truncatedMatch n)) :
    decompressFrom p s (fuel + 1) rp out = .error (.decodeTruncated rp) := by
  obtain ⟨_, e⟩ | ⟨r, _, _, e⟩ | ⟨r, hdrop, h8, h16, _⟩ | ⟨r, _, _, e⟩ := decodeToken_cases (s.drop rp)
  · rw [e] at h; cases h
  · rw [e] at h; cases h
  · obtain ⟨hflag, -⟩ := bitRead_of_drop hdrop
    obtain ⟨hpay, hall⟩ := length_of_drop hdrop
    rw [decompressFrom, if_neg (by simp; omega), hflag, if_neg (by decide), if_pos (by simp; omega)]
  · rw [e] at h; cases h

/-- Where a token is decoded at RP, it is replayed and decompression goes on behind it (R218, R219). -/
theorem decompressFrom_of_token {i : Instr} {rest : Bits} (fuel : Nat) (h : decodeToken (s.drop rp) = .token i rest) :
    decompressFrom p s (fuel + 1) rp out = (replayToken p rp i out).bind (decompressFrom p s fuel (rp + widthOf i)) := by
  obtain ⟨_, e⟩ | ⟨r, hdrop, h8, e⟩ | ⟨r, _, _, _, e⟩ | ⟨r, hdrop, h16, e⟩ := decodeToken_cases (s.drop rp) <;>
    rw [e] at h <;> cases h
  · obtain ⟨hflag, hread⟩ := bitRead_of_drop hdrop
    obtain ⟨-, hall⟩ := length_of_drop hdrop
    rw [decompressFrom, if_neg (by simp; omega), hflag, if_pos (by decide), show rp + 1 = rp + 1 + 0 from rfl, hread,
      replayToken]
    cases replayLit p rp (BitVec.ofNat 8 (bitRead r 0 8)) out <;> rfl
  · obtain ⟨hflag, hread⟩ := bitRead_of_drop hdrop
    obtain ⟨hpay, hall⟩ := length_of_drop hdrop
    rw [decompressFrom, if_neg (by simp; omega), hflag, if_neg (by decide), if_neg (by simp; omega),
      show bitRead s (rp + 1) 8 = bitRead r 0 8 from hread 0 8, show bitRead s (rp + 9) 8 = bitRead r 8 8 from hread 8 8,
      replayToken]
    cases replayMatch p rp _ _ out <;> rfl

end

/-! ## DECOMPRESS_CORE of written tokens -/

theorem isToken_of_encode {i : Instr} {bits : Bits} (h : encode i = some bits) : i.isToken = true := by
  obtain ⟨b, rfl, -⟩ | ⟨d, len, rfl, -⟩ := token_form_of_encode h
  · rfl
  · rfl

/-- Behind any bits already read, the tokens' bits and a tail of fewer than 9 bits are decompressed to the tokens' replay. -/
theorem decompressFrom_encodeTokens (p : Params) {ts : List Instr} {bits tail : Bits} (hw : ∀ i ∈ ts, i.wellFormed = true)
    (hbits : encodeTokens ts = some bits) (htail : tail.length < 9) {fuel : Nat} (hfuel : bits.length ≤ fuel)
    (before : Bits) (out : Bytes) :
    decompressFrom p (before ++ (bits ++ tail)) fuel before.length out = replay p before.length ts out := by
  induction ts generalizing bits fuel before out with
  | nil =>
    cases hbits
    rw [replay_nil, decompressFrom_of_short]
    simpa using htail
  | cons i ts ih =>
    obtain ⟨a, b, ha, hb, rfl⟩ := encodeTokens_cons hbits
    have hwidth : a.length = widthOf i := length_of_encode ha
    have hdec : decodeToken ((before ++ (a ++ b ++ tail)).drop before.length) = .token i (b ++ tail) := by
      rw [List.drop_left, List.append_assoc]
      exact decodeToken_encode (hw i List.mem_cons_self) ha _
    have hpos : 0 < a.length := by
      obtain ⟨_, _, hlen⟩ | ⟨_, _, _, hlen⟩ := token_form_of_encode ha <;> omega
    rw [List.length_append] at hfuel
    obtain ⟨fuel, rfl⟩ : ∃ f, fuel = f + 1 := ⟨fuel - 1, by omega⟩
    rw [decompressFrom_of_token p out fuel hdec, replay_cons p before.length ts out (isToken_of_encode ha)]
    refine congrArg (Except.bind _) (funext fun out' => ?_)
    have hrest := ih (fun j hj => hw j (List.mem_cons_of_mem i hj)) hb (fuel := fuel) (by omega) (before ++ a) out'
    rwa [List.length_append, hwidth, List.append_assoc, ← List.append_assoc a] at hrest

/-- Settles O55, by induction over the tokens with the bits before them read. -/
theorem decoderReplaysTheTokensAndDropsTheTail : Obligations.DecoderReplaysTheTokensAndDropsTheTail := by
  intro p tokens bits tail hw hbits htail
  exact decompressFrom_encodeTokens p hw hbits htail (by rw [List.length_append]; omega) [] []

/-! ## Replaying the parse -/

/-- A reported match replayed on the bytes before it appends the bytes it stands for (R144, R245). -/
theorem replayToken_of_found {p : Params} {data : Bytes} {pos w d len : Nat} (offset : Nat)
    (hcap : ∀ m, p.maxOutputBytes = some m → data.length ≤ m) (h : findLongestMatch data pos w = some (d, len)) :
    replayToken p offset (.matchTok d len) (data.take pos) = .ok (data.take (pos + len)) := by
  obtain ⟨h1, hd, h2, hlen⟩ := findLongestMatch_bounds h
  obtain ⟨⟨-, -, -, -, hmatch⟩, -⟩ := (finderSelectsTheLongestThenTheNearest data pos w (by omega)).1 d len h
  have htake : (data.take pos).length = pos := by rw [List.length_take]; omega
  have htile : tile (data.take pos) d len = (data.drop pos).take len := by
    refine List.ext_getElem? fun k => ?_
    by_cases hk : k < len
    · have hmod : k % d < d := Nat.mod_lt _ h1
      rw [getElem?_tile_eq h1 (by omega) hk, htake, List.getElem?_take_of_lt (by omega), List.getElem?_take_of_lt hk,
        List.getElem?_drop]
      exact (hmatch k hk).symm
    · rw [List.getElem?_eq_none (by rw [tile_length]; omega), List.getElem?_take_eq_none (by omega)]
  rw [replayToken, replayMatch, if_neg (by omega), matchCopy_of_room offset h1 (by omega), htile, ← List.take_add]
  intro m hm
  have := hcap m hm
  omega

/-- A literal of the byte at a position, replayed on the bytes before it, appends it (R241). -/
theorem replayToken_of_getElem? {p : Params} {data : Bytes} {pos : Nat} {b : Byte} (offset : Nat)
    (hcap : ∀ m, p.maxOutputBytes = some m → data.length ≤ m) (hb : data[pos]? = some b) :
    replayToken p offset (.lit b) (data.take pos) = .ok (data.take (pos + 1)) := by
  obtain ⟨hpos, -⟩ := List.getElem?_eq_some_iff.mp hb
  have hroom : beyond p.maxOutputBytes ((data.take pos).length + 1) = false := by
    rw [beyond_eq_false_iff, List.length_take]
    intro m hm
    have := hcap m hm
    omega
  rw [replayToken, replayLit, histAppend_of_room b hroom, List.take_add_one, hb]
  rfl

/-- The parse replays to the input: after each token OUT is the input up to the token's end (R278). -/
theorem replay_parse {p : Params} {w : Nat} {data : Bytes} (hcap : ∀ m, p.maxOutputBytes = some m → data.length ≤ m)
    (offset : Nat) : replay p offset (parse w data) [] = .ok data := by
  refine parse_induction w data (P := fun pos ts => ∀ offset, replay p offset ts (data.take pos) = .ok data) ?_ ?_ ?_ offset
  · intro offset
    rw [replay_nil, List.take_length]
  · intro pos d len ts _ hfound ih offset
    rw [replay_cons p offset ts _ rfl, replayToken_of_found offset hcap hfound]
    exact ih _
  · intro pos b ts _ _ hb ih offset
    rw [replay_cons p offset ts _ rfl, replayToken_of_getElem? offset hcap hb]
    exact ih _

/-- Settles O56: the stream is the parse's bits and a pad of fewer than 8 bits, and the parse replays to the input. -/
theorem decompressOfCompressIsTheInput : Obligations.DecompressOfCompressIsTheInput := by
  intro p w data _ hw hcap
  have hpad : (List.replicate (padCount (encodedBits w data).length) false).length < 9 := by
    rw [List.length_replicate]
    exact (padCount_lt _).trans (by decide)
  rw [compressBytes, packStep, unpack_pack (padStep_length_mod _), padStep_eq,
    decoderReplaysTheTokensAndDropsTheTail p (parse w data) _ _ (fun i hi => wellFormed_of_mem_parse hw hi)
      (encodeTokens_parse w data) hpad]
  exact replay_parse hcap 0

end Sys2Proof.Machine

/-! The commands: the step machine carries out the functions of the commands, each to its one response. -/

namespace Sys2Proof.Machine

/-! ## The start of a command -/

section
variable {s : State} {data : Bytes}

theorem runCommand_findMatch_of_beyond (pos : Nat) (h : beyond s.params.maxInputBytes data.length = true) :
    runCommand (.findMatch data pos) s = raise (.capacity (.length data.length)) s := by
  rw [runCommand, runFindMatch, if_pos h]

theorem runCommand_findMatch_of_outside {pos : Nat} (h : beyond s.params.maxInputBytes data.length = false)
    (hpos : data.length ≤ pos) : runCommand (.findMatch data pos) s = raise (.badArgument pos) s := by
  rw [runCommand, runFindMatch, if_neg (by simp [h]), if_pos hpos]

theorem runCommand_findMatch_of_inside {pos : Nat} (h : beyond s.params.maxInputBytes data.length = false)
    (hpos : pos < data.length) :
    runCommand (.findMatch data pos) s = s.putSearch { input := data, w := s.windowSize, pos := pos } := by
  rw [runCommand, runFindMatch, if_neg (by simp [h]), if_neg (by omega)]

theorem runCommand_compress_of_beyond (h : beyond s.params.maxInputBytes data.length = true) :
    runCommand (.compress data) s = raise (.capacity (.length data.length)) s := by
  rw [runCommand, runCompress, if_pos h]

theorem runCommand_compress_of_room (h : beyond s.params.maxInputBytes data.length = false) :
    runCommand (.compress data) s = s.putCompressor (.start data s.windowSize) := by
  rw [runCommand, runCompress, if_neg (by simp [h])]

theorem runCommand_decompress_of_beyond (h : beyond s.params.maxStreamBytes data.length = true) :
    runCommand (.decompress data) s = raise (.capacity (.length data.length)) s := by
  rw [runCommand, runDecompress, if_pos h]

theorem runCommand_decompress_of_room (h : beyond s.params.maxStreamBytes data.length = false) :
    runCommand (.decompress data) s = s.putDecoder (.start (unpack data)) := by
  rw [runCommand, runDecompress, if_neg (by simp [h])]

end

/-- An idle core after a command: CFG as the command makes it and its one response (R270, R279). -/
def State.answered (c : Command) (s : State) : State :=
  { s with cfg := windowAfter s.cfg c, responses := s.responses ++ [responseTo s.params s.windowSize c] }

/-- On an idle core a command is answered at once, or FIND_MATCH, COMPRESS or DECOMPRESS goes on inside its capacity. -/
theorem runCommand_forms (c : Command) {s : State} (ha : s.activity = .idle) :
    runCommand c s = s.answered c ∨
    (∃ data pos, c = .findMatch data pos ∧ beyond s.params.maxInputBytes data.length = false ∧ pos < data.length ∧
      runCommand c s = s.putSearch { input := data, w := s.windowSize, pos := pos }) ∨
    (∃ data, c = .compress data ∧ beyond s.params.maxInputBytes data.length = false ∧
      runCommand c s = s.putCompressor (.start data s.windowSize)) ∨
    (∃ bytes, c = .decompress bytes ∧ beyond s.params.maxStreamBytes bytes.length = false ∧
      runCommand c s = s.putDecoder (.start (unpack bytes))) := by
  cases c with
  | configure w =>
    refine .inl ?_
    by_cases hw : w < Config.windowMin ∨ Config.windowMax < w
    · rw [runCommand, runConfigure, if_pos hw, raise, respond_of_idle _ ha, State.answered, windowAfter, if_pos hw,
        responseTo, if_pos hw]
    · rw [runCommand, runConfigure, if_neg hw, finish, respond_of_idle _ (by exact ha), State.answered, windowAfter,
        if_neg hw, responseTo, if_neg hw]
      rfl
  | findMatch data pos =>
    cases hb : beyond s.params.maxInputBytes data.length with
    | true =>
      refine .inl ?_
      rw [runCommand_findMatch_of_beyond pos hb, raise, respond_of_idle _ ha, State.answered, responseTo, if_pos hb]
      rfl
    | false =>
      by_cases hpos : pos < data.length
      · exact .inr (.inl ⟨data, pos, rfl, hb, hpos, runCommand_findMatch_of_inside hb hpos⟩)
      · refine .inl ?_
        rw [runCommand_findMatch_of_outside hb (by omega), raise, respond_of_idle _ ha, State.answered, responseTo,
          if_neg (by simp [hb]), if_pos (by omega)]
        rfl
  | compress data =>
    cases hb : beyond s.params.maxInputBytes data.length with
    | true =>
      refine .inl ?_
      rw [runCommand_compress_of_beyond hb, raise, respond_of_idle _ ha, State.answered, responseTo, if_pos hb]
      rfl
    | false => exact .inr (.inr (.inl ⟨data, rfl, hb, runCommand_compress_of_room hb⟩))
  | decompress bytes =>
    cases hb : beyond s.params.maxStreamBytes bytes.length with
    | true =>
      refine .inl ?_
      rw [runCommand_decompress_of_beyond hb, raise, respond_of_idle _ ha, State.answered, responseTo, if_pos hb]
      rfl
    | false => exact .inr (.inr (.inr ⟨bytes, rfl, hb, runCommand_decompress_of_room hb⟩))

/-- Settles O20: each command is answered at once or goes on with the state that it set up. -/
theorem commandsLeaveTheRestAlone : Obligations.CommandsLeaveTheRestAlone := by
  intro s c ha
  refine ⟨runCommand c s, exec_command_of_idle c ha, ?_⟩
  obtain e | ⟨data, pos, rfl, -, -, e⟩ | ⟨data, rfl, -, e⟩ | ⟨bytes, rfl, -, e⟩ := runCommand_forms c ha <;> rw [e]
  · exact ⟨rfl, rfl, rfl, rfl, .inl ⟨ha, rfl⟩⟩
  · exact ⟨rfl, rfl, rfl, rfl, .inr ⟨rfl, rfl, .inl ⟨data, pos, rfl, rfl⟩⟩⟩
  · exact ⟨rfl, rfl, rfl, rfl, .inr ⟨rfl, rfl, .inr (.inl ⟨data, _, rfl, rfl, rfl⟩)⟩⟩
  · exact ⟨rfl, rfl, rfl, rfl, .inr ⟨rfl, rfl, .inr (.inr ⟨bytes, _, rfl, rfl, rfl⟩)⟩⟩

/-! ## FIND_MATCH -/

/-- Settles O17, check by check. -/
theorem findMatchAnswersTheFinder : Obligations.FindMatchAnswersTheFinder := by
  intro s data pos ha
  have hexec := exec_command_of_idle (.findMatch data pos) ha
  refine ⟨fun m hm h => ?_, fun h => ?_⟩
  · have hb := (beyond_eq_true_iff _ _).mpr ⟨m, hm, h⟩
    rw [runCommand_findMatch_of_beyond pos hb, raise, respond_of_idle _ ha] at hexec
    exact hexec
  · have hb := (beyond_eq_false_iff _ _).mpr h
    refine ⟨fun hpos => ?_, fun hpos => ?_⟩
    · rw [runCommand_findMatch_of_outside hb hpos, raise, respond_of_idle _ ha] at hexec
      exact hexec
    · rw [runCommand_findMatch_of_inside hb hpos] at hexec
      refine ⟨_, hexec, rfl, fun hr => ?_⟩
      rw [← respond_of_idle _ ha]
      exact step_of_finding (s := s.putSearch _) hr rfl

/-! ## COMPRESS -/

/-- At the end of the input, the step of COMPRESS is its response (R185, R186). -/
theorem step_of_compressing_end {s : State} {c : Compressor} (hr : s.resetRequested = false)
    (ha : s.activity = .compressing c) (hc : ¬ c.cur < c.n) :
    step s = .next (finish (.bytes (packStep (padStep c.enc))) s) := by
  rw [step_of_compressing hr ha, compressStep, if_neg hc]

/-- COMPRESS from any cursor with at most `fuel` bytes left carries out the encoder's loop, then pads and packs (R180,
R184). -/
theorem compress_runs {fuel : Nat} {s : State} {c : Compressor} (hr : s.resetRequested = false)
    (ha : s.activity = .compressing c) (hfuel : c.n ≤ c.cur + fuel) :
    ∃ k, k ≤ fuel + 1 ∧ Runs k s (finish (.bytes (packStep (padStep (encodeLoop fuel c).enc))) s) := by
  induction fuel generalizing s c with
  | zero => exact ⟨1, le_rfl, runs_succ (step_of_compressing_end hr ha (by omega)) (runs_zero _)⟩
  | succ fuel ih =>
    by_cases hc : c.cur < c.n
    · obtain ⟨i, c', _, hstep, hin, -, hcur, hspan, -⟩ := encoderStep_spec hc
      have hn : c'.n = c.n := congrArg List.length hin
      obtain ⟨k, hk, hruns⟩ := ih (s := { s with activity := .compressing c' }) (c := c') hr rfl (by omega)
      refine ⟨k + 1, by omega, runs_succ (step_of_encoderStep hr ha hc hstep) ?_⟩
      rw [encodeLoop, if_pos hc, hstep]
      exact hruns
    · refine ⟨1, by omega, runs_succ (step_of_compressing_end hr ha hc) ?_⟩
      rw [encodeLoop, if_neg hc]
      exact runs_zero _

theorem compress_start_runs {s : State} (data : Bytes) (hr : s.resetRequested = false) :
    ∃ k, k ≤ data.length + 1 ∧ Runs k (s.putCompressor (.start data s.windowSize))
      (respond (.ok (.bytes (compressBytes s.windowSize data))) s) :=
  compress_runs (s := s.putCompressor (.start data s.windowSize)) (fuel := data.length) hr rfl (Nat.zero_add _).ge

/-- Settles O18: the run of the encoder's loop from its start. -/
theorem compressRunsToItsResponse : Obligations.CompressRunsToItsResponse := by
  intro s data ha
  have hexec := exec_command_of_idle (.compress data) ha
  refine ⟨fun m hm h => ?_, fun h hr => ?_⟩
  · have hb := (beyond_eq_true_iff _ _).mpr ⟨m, hm, h⟩
    rw [runCommand_compress_of_beyond hb, raise, respond_of_idle _ ha] at hexec
    exact hexec
  · rw [runCommand_compress_of_room ((beyond_eq_false_iff _ _).mpr h)] at hexec
    refine ⟨_, hexec, rfl, ?_⟩
    rw [← respond_of_idle _ ha]
    exact compress_start_runs data hr

/-! ## DECOMPRESS -/

/-- A decoded token's bits are inside the sequence. -/
theorem length_of_decoded {s rest : Bits} {i : Instr} (h : decodeToken s = .token i rest) :
    s.length = widthOf i + rest.length := by
  obtain ⟨-, -, ⟨bits, hbits, rfl⟩, -⟩ := encodeOfDecodeIsTheBits s rest i h
  rw [List.length_append, length_of_encode hbits]

/-- The most steps a token takes: one for the token and one a copied byte (R222, R347). -/
def stepsOf : Instr → Nat
  | .lit _ => 1
  | .matchTok _ len => len + 1
  | .configure _ => 0
  | .findMatch _ _ => 0
  | .compress _ => 0
  | .decompress _ => 0

section
variable {s : State} {dec : Decoder} (hr : s.resetRequested = false) (ha : s.activity = .decompressing dec)
  (hf : dec.fsm = .readFlag)
include hr ha hf

/-- LIT from its flag carries out its replay in one step (R213, R241). -/
theorem lit_runs {b : Byte} {rest : Bits} (hdec : decodeToken (dec.stream.drop dec.rp) = .token (.lit b) rest) :
    (∀ out, replayLit s.params dec.rp b dec.out = .ok out →
      Runs 1 s (s.putDecoder { dec with rp := dec.rp + 9, out := out })) ∧
    (∀ e, replayLit s.params dec.rp b dec.out = .error e → Runs 1 s (raise e s)) := by
  have hlen := length_of_decoded hdec
  simp only [List.length_drop, widthOf] at hlen
  have hp : dec.PayloadAt false (dec.rp + 1) := .inr ⟨hf, rfl, by omega⟩
  have hstep := (step_of_token ((nextAction_of_decompressing hr ha).trans (action_of_decoded hf hdec))).trans
    (exec_lit_of_payloadAt ha b hp (by omega))
  rw [replayLit]
  cases happ : histAppend s.params b dec.out with
  | none =>
    rw [appendByte, happ] at hstep
    refine ⟨fun _ h => (by cases h), ?_⟩
    rintro _ ⟨⟩
    exact runs_succ hstep (runs_zero _)
  | some out' =>
    rw [appendByte, happ] at hstep
    refine ⟨?_, fun _ h => (by cases h)⟩
    rintro _ ⟨⟩
    rw [hf]
    exact runs_succ hstep (runs_zero _)

/-- MATCH from its flag and its copy steps carry out its replay (R214, R243). -/
theorem matchTok_runs {d len : Nat} {rest : Bits}
    (hdec : decodeToken (dec.stream.drop dec.rp) = .token (.matchTok d len) rest) :
    (∀ out, replayMatch s.params dec.rp d len dec.out = .ok out →
      Runs (len + 1) s (s.putDecoder { dec with rp := dec.rp + 17, out := out })) ∧
    (∀ e, replayMatch s.params dec.rp d len dec.out = .error e → ∃ k, k ≤ len + 1 ∧ Runs k s (raise e s)) := by
  have hlen := length_of_decoded hdec
  simp only [List.length_drop, widthOf] at hlen
  have hp : dec.PayloadAt true (dec.rp + 1) := .inr ⟨hf, rfl, by omega⟩
  have hexec := step_of_token ((nextAction_of_decompressing hr ha).trans (action_of_decoded hf hdec))
  rw [replayMatch]
  by_cases hd : d = 0 ∨ dec.out.length < d
  · rw [if_pos hd]
    refine ⟨fun _ h => (by cases h), ?_⟩
    rintro _ ⟨⟩
    exact ⟨1, by omega, runs_succ (hexec.trans (exec_matchTok_of_outside ha len hp (by omega) hd)) (runs_zero _)⟩
  · rw [if_neg hd]
    have hstep := hexec.trans (exec_matchTok_of_inside ha len hp (by omega) (by omega : 1 ≤ d) (by omega))
    obtain ⟨hok, herr⟩ := copy_runs (rem := len)
      (s := s.putDecoder { dec with rp := dec.rp + 1 + 16, fsm := Fsm.afterCopy d len }) hr (by omega : 1 ≤ d) rfl rfl
      (by show d ≤ dec.out.length; omega)
    refine ⟨fun out h => ?_, fun e h => ?_⟩
    · rw [hf]
      exact runs_succ hstep (hok out h)
    · obtain ⟨k, -, hk, hruns⟩ := herr e h
      exact ⟨k + 1, by omega, runs_succ hstep hruns⟩

/-- A token from its flag carries out its replay in at most `stepsOf` steps (R219, R222). -/
theorem token_runs {i : Instr} {rest : Bits} (hdec : decodeToken (dec.stream.drop dec.rp) = .token i rest) :
    (∀ out, replayToken s.params dec.rp i dec.out = .ok out →
      ∃ k, k ≤ stepsOf i ∧ Runs k s (s.putDecoder { dec with rp := dec.rp + widthOf i, out := out })) ∧
    (∀ e, replayToken s.params dec.rp i dec.out = .error e → ∃ k, k ≤ stepsOf i ∧ Runs k s (raise e s)) := by
  obtain ⟨htok, -⟩ := encodeOfDecodeIsTheBits _ _ _ hdec
  obtain ⟨b, rfl⟩ | ⟨d, len, rfl⟩ := isToken_cases htok
  · obtain ⟨hok, herr⟩ := lit_runs hr ha hf hdec
    exact ⟨fun out h => ⟨1, le_rfl, hok out h⟩, fun e h => ⟨1, le_rfl, herr e h⟩⟩
  · obtain ⟨hok, herr⟩ := matchTok_runs hr ha hf hdec
    exact ⟨fun out h => ⟨len + 1, le_rfl, hok out h⟩, herr⟩

end

/-- The bound of R222 on the steps for `r` bits, and one step for the end of the stream (log 1). -/
def stepBound (r : Nat) : Nat :=
  r / 9 + 15 * (r / 17) + 1

/-- A token's steps fit the bound of its bits (R222). -/
theorem stepsOf_add_stepBound_le {i : Instr} {r : Nat} (htok : i.isToken = true) (hw : i.wellFormed = true) :
    stepsOf i + stepBound r ≤ stepBound (widthOf i + r) := by
  obtain ⟨b, rfl⟩ | ⟨d, len, rfl⟩ := isToken_cases htok
  · simp only [stepsOf, widthOf, stepBound]
    omega
  · obtain ⟨-, hlen⟩ := wellFormed_matchTok.mp hw
    simp only [stepsOf, widthOf, stepBound]
    omega

theorem one_le_stepBound (r : Nat) : 1 ≤ stepBound r :=
  Nat.le_add_left 1 _

theorem widthOf_pos {i : Instr} (htok : i.isToken = true) : 0 < widthOf i := by
  obtain ⟨b, rfl⟩ | ⟨d, len, rfl⟩ := isToken_cases htok <;> exact Nat.zero_lt_succ _

/-- With fewer than 9 bits left DECOMPRESS answers OUT in one step, as DECOMPRESS_CORE does (R211). -/
theorem decompress_runs_of_short (fuel : Nat) {s : State} {dec : Decoder} (hr : s.resetRequested = false)
    (ha : s.activity = .decompressing dec) (hf : dec.fsm = .readFlag) (h : dec.stream.length - dec.rp < 9) :
    Runs 1 s (respond (responseOf (decompressFrom s.params dec.stream fuel dec.rp dec.out)) s) := by
  rw [decompressFrom_of_short _ _ _ h]
  exact runs_succ (step_of_endOfStream ((nextAction_of_decompressing hr ha).trans (action_of_end hf h))) (runs_zero _)

/-- DECOMPRESS from a flag carries out DECOMPRESS_CORE from RP and OUT within the bound of the bits left (R219, R222). -/
theorem decompress_runs {fuel : Nat} {s : State} {dec : Decoder} (hr : s.resetRequested = false)
    (ha : s.activity = .decompressing dec) (hf : dec.fsm = .readFlag) (hfuel : dec.stream.length - dec.rp ≤ fuel) :
    ∃ k, k ≤ stepBound (dec.stream.length - dec.rp) ∧
      Runs k s (respond (responseOf (decompressFrom s.params dec.stream fuel dec.rp dec.out)) s) := by
  induction fuel generalizing s dec with
  | zero => exact ⟨1, one_le_stepBound _, decompress_runs_of_short 0 hr ha hf (by omega)⟩
  | succ fuel ih =>
    cases hdec : decodeToken (dec.stream.drop dec.rp) with
    | reject r =>
      refine ⟨1, one_le_stepBound _, ?_⟩
      cases r with
      | endOfStream n =>
        obtain ⟨hshort, -⟩ := ((decoderRefusesOnlyShortStreams _).1 n).mp hdec
        exact decompress_runs_of_short (fuel + 1) hr ha hf (by simpa using hshort)
      | truncatedMatch n =>
        rw [decompressFrom_of_truncated _ _ _ hdec]
        exact runs_succ (step_of_truncated ((nextAction_of_decompressing hr ha).trans (action_of_flag_truncated hf hdec)))
          (runs_zero _)
    | token i rest =>
      obtain ⟨htok, hw, -⟩ := encodeOfDecodeIsTheBits _ _ _ hdec
      obtain ⟨hok, herr⟩ := token_runs hr ha hf hdec
      have hwidth := widthOf_pos htok
      have hlen := length_of_decoded hdec
      rw [List.length_drop] at hlen
      have hbound := stepsOf_add_stepBound_le (r := rest.length) htok hw
      rw [decompressFrom_of_token _ _ _ hdec, hlen]
      cases hrep : replayToken s.params dec.rp i dec.out with
      | error e =>
        obtain ⟨k, hk, hruns⟩ := herr e hrep
        exact ⟨k, by omega, hruns⟩
      | ok out =>
        obtain ⟨j, hj, hruns⟩ := hok out hrep
        have hleft : dec.stream.length - (dec.rp + widthOf i) = rest.length := by omega
        obtain ⟨k, hk, hruns'⟩ := ih (s := s.putDecoder { dec with rp := dec.rp + widthOf i, out := out })
          (dec := { dec with rp := dec.rp + widthOf i, out := out }) hr rfl hf (by rw [hleft]; omega)
        rw [hleft] at hk
        exact ⟨j + k, by omega, runs_trans hruns hruns'⟩

theorem decompress_start_runs {s : State} (bytes : Bytes) (hr : s.resetRequested = false) :
    ∃ k, k ≤ stepBound (8 * bytes.length) ∧ Runs k (s.putDecoder (.start (unpack bytes)))
      (respond (responseOf (decompressCore s.params (unpack bytes))) s) := by
  have hruns := decompress_runs (s := s.putDecoder (.start (unpack bytes))) (dec := .start (unpack bytes))
    (fuel := (unpack bytes).length) hr rfl rfl le_rfl
  rwa [show (Decoder.start (unpack bytes)).stream.length - (Decoder.start (unpack bytes)).rp = 8 * bytes.length from
    unpack_length_eq bytes] at hruns

/-- Settles O19: the run of the tokens from the start of the stream. -/
theorem decompressRunsToItsResponse : Obligations.DecompressRunsToItsResponse := by
  intro s bytes ha
  have hexec := exec_command_of_idle (.decompress bytes) ha
  refine ⟨fun m hm h => ?_, fun h hr => ?_⟩
  · have hb := (beyond_eq_true_iff _ _).mpr ⟨m, hm, h⟩
    rw [runCommand_decompress_of_beyond hb, raise, respond_of_idle _ ha] at hexec
    exact hexec
  · rw [runCommand_decompress_of_room ((beyond_eq_false_iff _ _).mpr h)] at hexec
    refine ⟨_, hexec, rfl, ?_⟩
    rw [← respond_of_idle _ ha]
    exact decompress_start_runs bytes hr

/-! ## Every command to its response -/

/-- What an idle core starts runs to the command's one response (R270, R279). -/
theorem runCommand_runs (c : Command) {s : State} (hr : s.resetRequested = false) (ha : s.activity = .idle) :
    ∃ k, Runs k (runCommand c s) (s.answered c) := by
  obtain e | ⟨data, pos, rfl, hb, hpos, e⟩ | ⟨data, rfl, hb, e⟩ | ⟨bytes, rfl, hb, e⟩ := runCommand_forms c ha <;> rw [e]
  · exact ⟨0, runs_zero _⟩
  · refine ⟨1, runs_succ (step_of_finding (s := s.putSearch _) hr rfl) ?_⟩
    rw [State.answered, responseTo, if_neg (by simp [hb]), if_neg (by omega)]
    exact congrArg Host.Outcome.next (respond_of_idle _ ha)
  · obtain ⟨k, -, hruns⟩ := compress_start_runs data hr
    rw [respond_of_idle _ ha] at hruns
    rw [State.answered, responseTo, if_neg (by simp [hb])]
    exact ⟨k, hruns⟩
  · obtain ⟨k, -, hruns⟩ := decompress_start_runs bytes hr
    rw [respond_of_idle _ ha] at hruns
    rw [State.answered, responseTo, if_neg (by simp [hb])]
    exact ⟨k, hruns⟩

/-- A command that an idle core has taken runs to its one response. -/
theorem accepted_runs {s : State} (c : Command) (rest : List Command) (hr : s.resetRequested = false)
    (ha : s.activity = .idle) : ∃ k, Runs k (accept c rest s) ({ s with waiting := rest }.answered c) := by
  have hstart : (accept c rest s).asIdle = { s with waiting := rest } := by rw [accept, State.asIdle, ← ha]
  obtain ⟨k, hruns⟩ := runCommand_runs c (s := { s with waiting := rest }) hr ha
  exact ⟨k + 1, runs_succ (step_of_accepted hr rfl) (hstart ▸ hruns)⟩

/-- Settles O15: the command is taken, started, and runs to its response. -/
theorem everyCommandEndsInItsOneResponse : Obligations.EveryCommandEndsInItsOneResponse := by
  intro s c rest hr ha hw
  obtain ⟨k, hruns⟩ := accepted_runs c rest hr ha
  exact ⟨k + 1, runs_succ (step_of_waiting hr ha hw) hruns⟩

/-- COMPRESS within its capacity answers the compressed bytes (R273). -/
theorem responseTo_compress {p : Params} {data : Bytes} (w : Nat)
    (h : ∀ m, p.maxInputBytes = some m → data.length ≤ m) :
    responseTo p w (.compress data) = .ok (.bytes (compressBytes w data)) := by
  rw [responseTo, if_neg (by simp [(beyond_eq_false_iff _ _).mpr h])]

/-- DECOMPRESS within its capacity answers what DECOMPRESS_CORE gives (R274). -/
theorem responseTo_decompress {p : Params} {bytes : Bytes} (w : Nat)
    (h : ∀ m, p.maxStreamBytes = some m → bytes.length ≤ m) :
    responseTo p w (.decompress bytes) = responseOf (decompressCore p (unpack bytes)) := by
  rw [responseTo, if_neg (by simp [(beyond_eq_false_iff _ _).mpr h])]

/-- Settles O57: both commands end in their responses, and the second's is the input by O56. -/
theorem commandsRoundTrip : Obligations.CommandsRoundTrip := by
  intro s data rest hr ha hw1 hw2 hin hstream hout hwait
  have hcomp := responseTo_compress s.windowSize hin
  have hdecomp : responseTo s.params s.windowSize (.decompress (compressBytes s.windowSize data)) = .ok (.bytes data) := by
    rw [responseTo_decompress _ fun m hm => (compressBytes_length_le _ _).trans (hstream m hm),
      decompressOfCompressIsTheInput s.params _ data hw1 hw2 hout, responseOf]
  obtain ⟨j, hj⟩ := everyCommandEndsInItsOneResponse s _ _ hr ha hwait
  rw [hcomp] at hj
  obtain ⟨k, hk⟩ := everyCommandEndsInItsOneResponse
    { s with
      waiting := .decompress (compressBytes s.windowSize data) :: rest
      responses := s.responses ++ [.ok (.bytes (compressBytes s.windowSize data))] } _ _ hr ha rfl
  have hfinal : Runs k _ { s with
      waiting := rest
      responses := s.responses ++ [.ok (.bytes (compressBytes s.windowSize data))] ++
        [responseTo s.params s.windowSize (.decompress (compressBytes s.windowSize data))] } := hk
  rw [hdecomp, List.append_assoc] at hfinal
  exact ⟨j + k, runs_trans hj hfinal⟩

end Sys2Proof.Machine

/-! The host adapter: what each of its steps does, how it awaits a command's response, and the three calls' ends. -/

namespace Sys2Proof.Machine

/-! ## Runs of the adapter -/

/-- Some number of steps of the adapter and its core leads from one system to another. -/
def System.Leads (sys sys' : System) : Prop :=
  ∃ k, System.run k sys = .next sys'

theorem System.leads_refl (sys : System) : sys.Leads sys :=
  ⟨0, rfl⟩

theorem System.leads_step {sys sys' sys'' : System} (h : sys.step = .next sys') (hl : sys'.Leads sys'') :
    sys.Leads sys'' := by
  obtain ⟨k, hk⟩ := hl
  refine ⟨k + 1, ?_⟩
  rw [System.run, h]
  exact hk

theorem System.leads_trans {sys sys' sys'' : System} (h : sys.Leads sys') (hl : sys'.Leads sys'') : sys.Leads sys'' := by
  obtain ⟨k, hk⟩ := h
  induction k generalizing sys with
  | zero => cases hk; exact hl
  | succ k ih =>
    rw [System.run] at hk
    split at hk
    · exact System.leads_step ‹_› (ih hk)
    · cases hk
    · cases hk

/-! ## Awaiting a response -/

/-- The place of the response that the adapter awaits, in the phases in which it awaits one (R276, log 15). -/
def Phase.awaits : Phase → Option Nat
  | .ready => none
  | .configuring _ expect => some expect
  | .reading _ => none
  | .running _ expect => some expect
  | .writing _ _ => none

/-- Until the awaited response is given, the core steps (R276). -/
theorem system_step_of_awaiting {sys : System} {n : Nat} {t : State} (hp : sys.adapter.phase.awaits = some n)
    (hlen : sys.core.responses.length = n) (h : step sys.core = .next t) : sys.step = .next { sys with core := t } := by
  have hnone : sys.core.responses[n]? = none := List.getElem?_eq_none hlen.le
  have hcore : sys.coreStep = .next { sys with core := t } := by rw [System.coreStep, h]
  cases hphase : sys.adapter.phase with
  | configuring call expect =>
    rw [hphase] at hp
    obtain rfl : expect = n := Option.some.inj hp
    simp only [System.step, hphase, hnone, hcore]
  | running call expect =>
    rw [hphase] at hp
    obtain rfl : expect = n := Option.some.inj hp
    simp only [System.step, hphase, hnone, hcore]
  | ready => rw [hphase] at hp; cases hp
  | reading => rw [hphase] at hp; cases hp
  | writing => rw [hphase] at hp; cases hp

/-- A core with nothing to do stays as it is. -/
theorem runs_at_rest {k : Nat} {s t : State} (hr : s.resetRequested = false) (ha : s.activity = .idle) (hw : s.waiting = [])
    (h : Runs k s t) : t = s := by
  induction k with
  | zero => cases h; rfl
  | succ k ih =>
    obtain ⟨u, hu, hruns⟩ := runs_succ_inv h
    rw [step_of_idle hr ha hw] at hu
    cases hu
    exact ih hruns

/-- Where nothing waits and no reset is requested, no step changes that. -/
theorem step_keeps_nothing_waiting {s t : State} (hr : s.resetRequested = false) (hw : s.waiting = [])
    (h : step s = .next t) : t.resetRequested = false ∧ t.waiting = [] := by
  by_cases ha : s.activity = .idle
  · rw [step_of_idle hr ha hw] at h
    cases h
    exact ⟨hr, hw⟩
  · obtain ⟨hwait, -, hreset, -⟩ := (busyCoreTakesNoOtherCommand s ha).2 t hr h
    exact ⟨hreset, hwait.trans hw⟩

/-- While the adapter awaits a response, the core runs to it: the response leaves the core idle, so no step goes beyond. -/
theorem leads_of_runs {k : Nat} {sys : System} {t : State} {n : Nat} (hp : sys.adapter.phase.awaits = some n)
    (hr : sys.core.resetRequested = false) (hw : sys.core.waiting = []) (hlen : sys.core.responses.length = n)
    (hruns : Runs k sys.core t) (ht : t.responses.length = n + 1) : sys.Leads { sys with core := t } := by
  induction k generalizing sys with
  | zero =>
    cases hruns
    omega
  | succ k ih =>
    obtain ⟨u, hu, hrest⟩ := runs_succ_inv hruns
    have hstep := system_step_of_awaiting hp hlen hu
    obtain ⟨hr', hw'⟩ := step_keeps_nothing_waiting hr hw hu
    obtain hsame | ⟨r, -, hidle⟩ := stepGivesAtMostOneResponse _ _ hu
    · exact System.leads_step hstep (ih (sys := { sys with core := u }) hp hr' hw' (hsame ▸ hlen) hrest)
    · obtain rfl := runs_at_rest hr' hidle hw' hrest
      exact System.leads_step hstep (System.leads_refl _)

theorem free_iff {s : State} : s.free = true ↔ s.resetRequested = false ∧ s.activity = .idle ∧ s.waiting = [] := by
  simp [State.free, and_assoc]

/-- A command that the adapter issues to a free core is answered, and the core is free again (R276, R279). -/
theorem leads_of_issue {a : Adapter} {s : State} (c : Command) (hp : a.phase.awaits = some s.responses.length)
    (hfree : s.free = true) : System.Leads ⟨a, { s with waiting := [c] }⟩ ⟨a, s.answered c⟩ := by
  obtain ⟨hr, ha, hw⟩ := free_iff.mp hfree
  obtain ⟨k, hruns⟩ := accepted_runs c [] (s := { s with waiting := [c] }) hr ha
  have hfinal : ({ ({ s with waiting := [c] } : State) with waiting := [] }).answered c = s.answered c := by
    rw [State.answered, State.answered, hw]
    rfl
  rw [hfinal] at hruns
  refine System.leads_step (system_step_of_awaiting hp rfl (step_of_waiting (s := { s with waiting := [c] }) hr ha rfl)) ?_
  refine leads_of_runs (sys := ⟨a, accept c [] { s with waiting := [c] }⟩) hp hr rfl rfl hruns ?_
  rw [State.answered, List.length_append]
  rfl

/-! ## The adapter's own steps -/

theorem getElem?_answered (c : Command) (s : State) :
    (s.answered c).responses[s.responses.length]? = some (responseTo s.params s.windowSize c) :=
  List.getElem?_concat_length

section
variable {sys : System}

theorem system_step_of_call {call : Call} {rest : List Call} (hp : sys.adapter.phase = .ready)
    (hc : sys.adapter.calls = call :: rest) (hfree : sys.core.free = true) :
    sys.step = .next (sys.startCall call rest) := by
  simp only [System.step, hp, hc, hfree, if_true]

theorem system_step_of_configured {call : Call} {n : Nat} {r : Result} (hp : sys.adapter.phase = .configuring call n)
    (h : sys.core.responses[n]? = some (.ok r)) : sys.step = .next (sys.goto (.reading call)) := by
  simp only [System.step, hp, h]

theorem system_step_of_rejected {call : Call} {n : Nat} {e : Error} (hp : sys.adapter.phase = .configuring call n)
    (h : sys.core.responses[n]? = some (.err e)) : sys.step = .next (sys.endCall (.failed e)) := by
  simp only [System.step, hp, h]

theorem system_step_of_unreadable {call : Call} (hp : sys.adapter.phase = .reading call)
    (h : sys.adapter.files.read call.input = none) :
    sys.step = .next (sys.endCall (.failed (.ioError call.input .read))) := by
  simp only [System.step, hp, h]

theorem system_step_of_read {call : Call} {data : Bytes} (hp : sys.adapter.phase = .reading call)
    (h : sys.adapter.files.read call.input = some data) : sys.step = .next (sys.issue (call.command data) (.running call)) := by
  simp only [System.step, hp, h]

theorem system_step_of_bytes {call : Call} {n : Nat} {bs : Bytes} (hp : sys.adapter.phase = .running call n)
    (h : sys.core.responses[n]? = some (.ok (.bytes bs))) : sys.step = .next (sys.goto (.writing call bs)) := by
  simp only [System.step, hp, h]

theorem system_step_of_error {call : Call} {n : Nat} {e : Error} (hp : sys.adapter.phase = .running call n)
    (h : sys.core.responses[n]? = some (.err e)) : sys.step = .next (sys.endCall (.failed e)) := by
  simp only [System.step, hp, h]

theorem system_step_of_written {call : Call} {bs : Bytes} {files : Files} (hp : sys.adapter.phase = .writing call bs)
    (h : sys.adapter.files.write call.output bs = some files) :
    sys.step = .next (System.endCall .success { sys with adapter := { sys.adapter with files := files } }) := by
  simp only [System.step, hp, h]

end

/-! ## The calls -/

/-- A call with a window begins with its CONFIGURE, which the core answers (R276 step 1). -/
theorem leads_of_window {sys : System} {call : Call} {rest : List Call} {w : Nat} (hp : sys.adapter.phase = .ready)
    (hfree : sys.core.free = true) (hc : sys.adapter.calls = call :: rest) (hw : call.window = some w) :
    sys.Leads
      { adapter := { sys.adapter with calls := rest, phase := .configuring call sys.core.responses.length }
        core := sys.core.answered (.configure w) } := by
  refine System.leads_step (system_step_of_call hp hc hfree) ?_
  rw [System.startCall, hw]
  exact leads_of_issue (.configure w) rfl hfree

/-- A call that has read its data hands it to the core, which answers (R276). -/
theorem leads_of_read {sys : System} {call : Call} {data : Bytes} (hp : sys.adapter.phase = .reading call)
    (hfree : sys.core.free = true) (h : sys.adapter.files.read call.input = some data) :
    sys.Leads
      { adapter := { sys.adapter with phase := .running call sys.core.responses.length }
        core := sys.core.answered (call.command data) } :=
  System.leads_step (system_step_of_read hp h) (leads_of_issue (call.command data) rfl hfree)

/-- Settles O58: the CONFIGURE is rejected, and the call ends with its error. -/
theorem adapterRejectsTheWindowBeforeAnyFile : Obligations.AdapterRejectsTheWindowBeforeAnyFile := by
  intro sys input output w rest hp hfree hc hw
  have hresp : responseTo sys.core.params sys.core.windowSize (.configure w) = .err (.configError w) :=
    if_pos (by simp; omega)
  have hcfg : windowAfter sys.core.cfg (.configure w) = sys.core.cfg := if_pos (by simp; omega)
  refine System.leads_trans (leads_of_window hp hfree hc rfl)
    (System.leads_step (system_step_of_rejected rfl ((getElem?_answered _ _).trans (congrArg some hresp))) ?_)
  rw [State.answered, hresp, hcfg, System.endCall, ← hp]
  exact System.leads_refl _

theorem configure_checks {w : Nat} (h1 : 1 ≤ w) (h2 : w ≤ 400) : ¬ (w < Config.windowMin ∨ Config.windowMax < w) := by
  simp
  omega

/-- CONFIGURE with a legal window answers Ok (R271). -/
theorem responseTo_configure {w : Nat} (p : Params) (window : Nat) (h1 : 1 ≤ w) (h2 : w ≤ 400) :
    responseTo p window (.configure w) = .ok .done :=
  if_neg (configure_checks h1 h2)

/-- A core after CONFIGURE with a legal window (R271). -/
theorem answered_configure {w : Nat} (s : State) (h1 : 1 ≤ w) (h2 : w ≤ 400) :
    s.answered (.configure w) = { s with cfg := BitVec.ofNat 9 w, responses := s.responses ++ [.ok .done] } := by
  rw [State.answered, responseTo_configure _ _ h1 h2, windowAfter, if_neg (configure_checks h1 h2)]

theorem answered_configure_windowSize {w : Nat} (s : State) (h1 : 1 ≤ w) (h2 : w ≤ 400) :
    (s.answered (.configure w)).windowSize = w := by
  rw [answered_configure s h1 h2]
  exact setWindow_windowSize s h2

/-- A core after COMPRESS within its capacity (R273). -/
theorem answered_compress {s : State} {data : Bytes} (h : ∀ m, s.params.maxInputBytes = some m → data.length ≤ m) :
    s.answered (.compress data) =
      { s with responses := s.responses ++ [.ok (.bytes (compressBytes s.windowSize data))] } := by
  rw [State.answered, responseTo_compress _ h, windowAfter]

/-- Settles O59: CONFIGURE, the read, COMPRESS and the write follow one another. -/
theorem adapterCompressesAFile : Obligations.AdapterCompressesAFile := by
  intro sys input output w data files rest hp hfree hc h1 h2 hread hin hwrite
  have hconf := responseTo_configure sys.core.params sys.core.windowSize h1 h2
  have hwindow := answered_configure_windowSize sys.core h1 h2
  have hcomp : responseTo sys.core.params (sys.core.answered (.configure w)).windowSize (.compress data) =
      .ok (.bytes (compressBytes w data)) := by
    rw [hwindow, responseTo_compress w hin]
  have hcore : (sys.core.answered (.configure w)).answered (.compress data) =
      { sys.core with
        cfg := BitVec.ofNat 9 w
        responses := sys.core.responses ++ [.ok .done, .ok (.bytes (compressBytes w data))] } := by
    rw [answered_compress (s := sys.core.answered (.configure w)) hin, hwindow, answered_configure sys.core h1 h2]
    simp
  refine System.leads_trans (leads_of_window hp hfree hc rfl)
    (System.leads_step (system_step_of_configured rfl ((getElem?_answered _ _).trans (congrArg some hconf))) ?_)
  refine System.leads_trans (leads_of_read rfl hfree hread)
    (System.leads_step (system_step_of_bytes rfl ((getElem?_answered _ _).trans (congrArg some hcomp))) ?_)
  refine System.leads_step (system_step_of_written rfl hwrite) ?_
  rw [System.endCall, ← hp, ← hcore]
  exact System.leads_refl _

/-- Settles O60: a failed read ends the call at once, a decode error is passed on. -/
theorem adapterReportsReadFailureAndDecodeErrors : Obligations.AdapterReportsReadFailureAndDecodeErrors := by
  intro sys input output rest hp hfree hc
  have hstart := system_step_of_call hp hc hfree
  refine ⟨fun hread => ?_, fun data e hread hfits herr => ?_⟩
  · refine System.leads_step hstart (System.leads_step (system_step_of_unreadable rfl hread) ?_)
    rw [System.endCall, ← hp]
    exact System.leads_refl _
  · have hresp : responseTo sys.core.params sys.core.windowSize (.decompress data) = .err e := by
      rw [responseTo_decompress _ hfits, herr, responseOf]
    refine System.leads_step hstart (System.leads_trans (leads_of_read rfl hfree hread)
      (System.leads_step (system_step_of_error rfl ((getElem?_answered _ _).trans (congrArg some hresp))) ?_))
    have hcore : sys.core.answered (.decompress data) =
        { sys.core with responses := sys.core.responses ++ [.err e] } := by
      rw [State.answered, hresp, windowAfter]
    rw [System.endCall, ← hp, ← hcore]
    exact System.leads_refl _

end Sys2Proof.Machine
